-- ==== Sys2Proof/Word.lean ====
section
/-! DEFINITION. The word types of the block (00_scope.md R9): a byte, a 16-bit bus offset or control address, the page
register's bits. All arithmetic on them is unsigned. -/

namespace Sys2Proof

/-- A byte of a store (R9). -/
abbrev Byte := BitVec 8

/-- A 16-bit unsigned value of the bus: an `offset` (R61) or a control `address` (R63). -/
abbrev Word := BitVec 16

/-- The page register (R21), at the width it has in the largest class, `W = 13`. A smaller class uses its low `W`
bits; that the others are zero is the invariant R26(a) (notes/assumptions/13). -/
abbrev Page := BitVec 13

end Sys2Proof
end

