-- ==== Sys2Proof/Config.lean ====
section
/-! DEFINITION. What an implementation fixes: the types of the configuration record (00_scope.md R5), of the window
parameters (R7), of the three store regions (R27), and the free values, as constants with no body. -/

namespace Sys2Proof

/-- `capacityClass` (R5): the size of `MainStore`. -/
inductive CapacityClass where
  | mib2
  | mib4
  | mib8
  | mib16
  deriving DecidableEq, Repr

/-- `splitMode` (R5). -/
inductive SplitMode where
  | disabled
  | dualAddress
  | bitSelected
  deriving DecidableEq, Repr

/-- The configuration record `cfg` (R5): what the configuration provider answers at a reset. -/
structure ConfigRecord where
  capacityClass : CapacityClass
  expansionInstalled : Bool
  splitMode : SplitMode
  wideModeAllowed : Bool
  /-- The value that a reset loads into the hide switch (R170). -/
  hideSwitch : Bool
  genmodFix : Bool
  baseA : Word
  baseB : Word
  deriving DecidableEq, Repr

/-- The three storage regions (R27). -/
inductive Region where
  | main
  | firmware
  | expansion
  deriving DecidableEq, Repr

/-- A run of bus offsets, both ends included. -/
structure OffsetRange where
  lo : Word
  hi : Word
  deriving DecidableEq, Repr

/-- A set of bus offsets as plain data: every predicate on the 65536 offsets is such a list (notes/assumptions/2). -/
abbrev OffsetSet := List OffsetRange

/-- An expansion sub-window: its first bus offset `EXP_WIN[k]` and its store offset `EXP_OFF[k]` (R7). -/
structure ExpansionWindow where
  base : Word
  off : Word
  deriving DecidableEq, Repr

/-- The window parameters (R7). `none` for a `GENMOD` predicate says that the model is given no value for it (R43). -/
structure WindowParams where
  /-- `FW_BASE` -/
  fwBase : Word
  /-- `CART_BASE` -/
  cartBase : Word
  exp0 : ExpansionWindow
  exp1 : ExpansionWindow
  exp2 : ExpansionWindow
  exp3 : ExpansionWindow
  /-- `GENMOD_FW_WINDOW` -/
  genmodFw : Option OffsetSet
  /-- `GENMOD_CART_WINDOW` -/
  genmodCart : Option OffsetSet
  deriving DecidableEq, Repr

/-- FREE VALUE: the byte that construction leaves at an offset of a store, in the session with the given number. At
`expansion` this is the draw `EXP_INIT` (R8, R135: "a draw with no law", notes/assumptions/3); at `main` and `firmware`
it is what the store holds before the first `LOAD` or `DEFAULT`, to which R173 gives no value (notes/assumptions/4).
DESIGN CHOICE, safe: the spec does not say whether each construction draws anew. The session number keeps that open:
the bytes of two sessions may be equal or not, and neither can be proved (notes/assumptions/21). -/
opaque Config.initialByte : Nat → Region → Nat → Byte

/-- FREE VALUE: `page` between construction and the first `RESET` of a session (R172: it holds no value;
notes/assumptions/4, 21). -/
opaque Config.initialPage : Nat → Page

/-- FREE VALUE: `selected` between construction and the first `RESET` of a session (R172; notes/assumptions/4, 21). -/
opaque Config.initialSelected : Nat → Bool

/-- FREE VALUE: `wideModeActive` between construction and the first `RESET` of a session (R172;
notes/assumptions/4, 21). -/
opaque Config.initialWide : Nat → Bool

/-- FREE VALUE: `hideSwitch` between construction and the first `RESET` of a session (R172;
notes/assumptions/4, 21). -/
opaque Config.initialHide : Nat → Bool

end Sys2Proof
end

