-- ==== Sys2Proof/Machine/Params.lean ====
section
/-! DEFINITION. The quantities that follow from `capacityClass` (00_scope.md R6), the fixed sizes, and the default
values of the window parameters (R7). -/

namespace Sys2Proof.Machine

/-- `e`, the capacity size exponent (R6). -/
def exponent : CapacityClass → Nat
  | .mib2 => 0
  | .mib4 => 1
  | .mib8 => 2
  | .mib16 => 3

/-- `W = 10 + e`, the width of the page register in bits (R6). -/
def pageWidth (c : CapacityClass) : Nat := 10 + exponent c

/-- `boundary = 10 + e`, the source's "splitBoundaryBit" (R6, R96). -/
def boundary (c : CapacityClass) : Nat := 10 + exponent c

/-- `dsMask = 0x0200 << e`, the drive-select page bit (R6, R96). -/
def dsMask (c : CapacityClass) : Page := 0x0200#13 <<< exponent c

/-- `capacity = 2^(21+e)`, the size of `MainStore` in bytes (R6, R27). -/
def capacity (c : CapacityClass) : Nat := 2 ^ (21 + exponent c)

/-- The size of `FirmwareStore` (R27). -/
def firmwareBytes : Nat := 8192

/-- The size of `ExpansionStore` where it is installed (R27). -/
def expansionBytes : Nat := 32768

/-- `MAX_CAPACITY` = 16 MiB (R8). -/
def maxCapacity : Nat := 16777216

/-- The longest image a `LOAD` takes, `MAX_CAPACITY + 8192` bytes (R66). -/
def maxImageBytes : Nat := maxCapacity + firmwareBytes

/-- The default window parameters (R7); the `GENMOD` predicates are open and have no default. -/
def defaultWindows : WindowParams where
  fwBase := 0x4000#16
  cartBase := 0x6000#16
  exp0 := ⟨0x2000#16, 0x0000#16⟩
  exp1 := ⟨0xA000#16, 0x2000#16⟩
  exp2 := ⟨0xC000#16, 0x4000#16⟩
  exp3 := ⟨0xE000#16, 0x6000#16⟩
  genmodFw := none
  genmodCart := none

/-- The configuration record of `State.reset`: the one that R74 writes out as its example. The spec gives no default
(D12): DESIGN CHOICE, unsafe, notes/assumptions/6. -/
def resetConfig : ConfigRecord where
  capacityClass := .mib2
  expansionInstalled := false
  splitMode := .disabled
  wideModeAllowed := false
  hideSwitch := false
  genmodFix := false
  baseA := 0x1200#16
  baseB := 0x1400#16

end Sys2Proof.Machine
end

