-- ==== Sys2Proof/Syntax.lean ====
section
/-! DEFINITION. The requests of the block (30_encoding.md R60), one constructor for each row of the opcode table, and
the raw form in which the host puts a request on the block's interface. -/

namespace Sys2Proof

/-- A persistent image (R131): a byte sequence of the given length, held sparsely. A byte that `cells` does not list is
0x00, and `cells` lists offsets in rising order, below the length, with no 0x00 (`Image.wf`): each byte sequence is
exactly one image (notes/assumptions/11). -/
structure Image where
  length : Nat
  cells : List Host.Cell
  deriving DecidableEq, Repr

/-- The request set (R60), with one constructor for each `CTL` bit index (R70). -/
inductive Instr where
  /-- `RD` (R82) -/
  | rd (offset : Word)
  /-- `WR` (R83) -/
  | wr (offset : Word) (value : Byte)
  /-- `CTL.SEL`, bitIndex 0 (R100) -/
  | ctlSel (address : Word) (value : Bool)
  /-- `CTL.PG1`, bitIndex 1 (R101) -/
  | ctlPg1 (address : Word) (value : Bool)
  /-- `CTL.PG0`, bitIndex 2 (R102) -/
  | ctlPg0 (address : Word) (value : Bool)
  /-- `CTL.PG2`, bitIndex 3 (R103) -/
  | ctlPg2 (address : Word) (value : Bool)
  /-- `CTL.PG3`, bitIndex 4 (R104) -/
  | ctlPg3 (address : Word) (value : Bool)
  /-- `CTL.PG4`, bitIndex 5 (R105) -/
  | ctlPg4 (address : Word) (value : Bool)
  /-- `CTL.PG5`, bitIndex 6 (R106) -/
  | ctlPg5 (address : Word) (value : Bool)
  /-- `CTL.PG6`, bitIndex 7 (R107) -/
  | ctlPg6 (address : Word) (value : Bool)
  /-- `CTL.PG7`, bitIndex 8 (R108) -/
  | ctlPg7 (address : Word) (value : Bool)
  /-- `CTL.PG8`, bitIndex 9 (R109) -/
  | ctlPg8 (address : Word) (value : Bool)
  /-- `CTL.PG9`, bitIndex 10 (R110) -/
  | ctlPg9 (address : Word) (value : Bool)
  /-- `CTL.PG10`, bitIndex 11 (R111) -/
  | ctlPg10 (address : Word) (value : Bool)
  /-- `CTL.PG11`, bitIndex 12 (R112) -/
  | ctlPg11 (address : Word) (value : Bool)
  /-- `CTL.PG12`, bitIndex 13 (R113) -/
  | ctlPg12 (address : Word) (value : Bool)
  /-- `CTL.RSV`, bitIndex 14 (R114) -/
  | ctlRsv (address : Word) (value : Bool)
  /-- `CTL.WIDE`, bitIndex 15 (R115) -/
  | ctlWide (address : Word) (value : Bool)
  /-- `RESET` (R170) -/
  | reset (cfg : ConfigRecord)
  /-- `HIDE` (R130) -/
  | hide (b : Bool)
  /-- `LOAD` (R133) -/
  | loadImage (img : Image)
  /-- `DEFAULT` (R134) -/
  | defaultImage
  /-- `SAVE` (R132) -/
  | saveImage
  deriving DecidableEq, Repr

/-- The interface operations whose operands are a tuple of fields (R60); the operation selects the row of the table. -/
inductive PortOp where
  | read
  | write
  | controlBitWrite
  | reset
  | setHideSwitch
  | persistDefault
  | persistSave
  deriving DecidableEq, Repr

/-- A request as the host puts it on the interface, before decoding: an operation with the bytes of its field tuple
(the model's own serialisation, notes/assumptions/9), or the image that the persistence collaborator read (R66). -/
inductive PortRequest where
  | fields (op : PortOp) (bytes : List Byte)
  | persistLoad (img : Image)
  deriving DecidableEq, Repr

end Sys2Proof
end

