-- ==== Sys2Proof/WellFormed.lean ====
section
/-! DEFINITION. Which instructions are well formed. Every field but the image of `LOAD` has exactly the values its type
has (30_encoding.md R72: no encoding is illegal); an image is a byte sequence of at most `MAX_CAPACITY + 8192` bytes (R66). -/

namespace Sys2Proof

/-- The listed offsets rise strictly. -/
def rising : List Host.Cell → Bool
  | [] => true
  | c :: rest =>
    match rest with
    | [] => true
    | d :: _ => decide (c.1 < d.1) && rising rest

/-- No listed byte is 0x00, the value of an unlisted one. -/
def Image.listsNoZero (img : Image) : Bool := img.cells.all fun c => c.2 != 0#8

/-- Every listed offset lies inside the image. -/
def Image.inRange (img : Image) : Bool := img.cells.all fun c => decide (c.1 < img.length)

/-- The image is a byte sequence in its one canonical form. -/
def Image.wf (img : Image) : Bool := rising img.cells && img.listsNoZero && img.inRange

/-- The image is no longer than a `LOAD` takes (R66: `0 <= n <= MAX_CAPACITY + 8192`). -/
def Image.lengthFits (img : Image) : Bool := decide (img.length ≤ Machine.maxImageBytes)

/-- The instruction is one that the spec's formats allow (R61 to R66). -/
def wellFormed : Instr → Bool
  | .rd _ => true
  | .wr _ _ => true
  | .ctlSel _ _ => true
  | .ctlPg1 _ _ => true
  | .ctlPg0 _ _ => true
  | .ctlPg2 _ _ => true
  | .ctlPg3 _ _ => true
  | .ctlPg4 _ _ => true
  | .ctlPg5 _ _ => true
  | .ctlPg6 _ _ => true
  | .ctlPg7 _ _ => true
  | .ctlPg8 _ _ => true
  | .ctlPg9 _ _ => true
  | .ctlPg10 _ _ => true
  | .ctlPg11 _ _ => true
  | .ctlPg12 _ _ => true
  | .ctlRsv _ _ => true
  | .ctlWide _ _ => true
  | .reset _ => true
  | .hide _ => true
  | .loadImage img => img.wf && img.lengthFits
  | .defaultImage => true
  | .saveImage => true

end Sys2Proof
end

