-- ==== Sys2Proof/Decode.lean ====
section
/-! DEFINITION. From a raw request on the interface to an instruction (30_encoding.md), and back. The interface
operation selects the row (R60); a `CTL` row is selected by `bitIndex[3:0]` (R63, R70). The bytes that carry a field tuple are
the model's own serialisation (notes/assumptions/9):

* `MEM-R`: `offset[7:0]`, `offset[15:8]`;
* `MEM-W`: `offset[7:0]`, `offset[15:8]`, `value`;
* `CTL`: the 24-bit number with `bitIndex` in bits 3..0, `address` in bits 19..4, `value` in bit 20 and zero above, low byte first;
* `RST`: a byte of flags (bits 1..0 the size exponent, 2 `expansionInstalled`, 4..3 `splitMode`, 5 `wideModeAllowed`,
  6 `hideSwitch`, 7 `genmodFix`), then `baseA` and `baseB`, low byte first;
* `SW`: one byte, 0 or 1;
* `DEFAULT`, `SAVE`: no byte. `LOAD` carries its image as such. -/

namespace Sys2Proof

/-- Why a raw request is no request of the block. -/
inductive DecodeError where
  /-- The number of bytes is not that of the operation's format (R73: one fixed shape). -/
  | wrongLength
  /-- Padding above the fields is not zero. -/
  | paddingNotZero
  /-- The `splitMode` code of a configuration record is 3, which names no mode (R5). -/
  | splitModeCode
  /-- An image's offsets do not rise. -/
  | imageNotRising
  /-- An image lists a 0x00. -/
  | imageListsZero
  /-- An image lists an offset at or above its length. -/
  | imageOutOfRange
  /-- An image is longer than `MAX_CAPACITY + 8192` bytes (R66). -/
  | imageTooLong
  deriving DecidableEq, Repr

/-! ### Fields -/

/-- The 16-bit value whose low and high bytes are given. -/
def wordOfBytes (lo hi : Byte) : Word := hi ++ lo

/-- The low byte of a 16-bit value. -/
def lowByte (w : Word) : Byte := w.extractLsb' 0 8

/-- The high byte of a 16-bit value. -/
def highByte (w : Word) : Byte := w.extractLsb' 8 8

/-- `bitIndex[3:0]` of a packed `CTL` tuple (R63), from its first byte. -/
def controlIndex (b0 : Byte) : BitVec 4 := b0.extractLsb' 0 4

/-- `address[15:0]` of a packed `CTL` tuple (R63). -/
def controlAddress (b0 b1 b2 : Byte) : Word := b2.extractLsb' 0 4 ++ b1 ++ b0.extractLsb' 4 4

/-- `value` of a packed `CTL` tuple (R63), from its third byte. -/
def controlValue (b2 : Byte) : Bool := b2.getLsbD 4

/-- The three bytes of a packed `CTL` tuple. -/
def controlBytes (index : BitVec 4) (address : Word) (value : Bool) : List Byte :=
  [address.extractLsb' 0 4 ++ index, address.extractLsb' 4 8,
    0#3 ++ BitVec.ofBool value ++ address.extractLsb' 12 4]

/-- The control-bit decode map, opcode map of `CTL` (R70). -/
def controlRow (index : BitVec 4) (address : Word) (value : Bool) : Instr :=
  match index.toNat with
  | 0 => .ctlSel address value
  | 1 => .ctlPg1 address value
  | 2 => .ctlPg0 address value
  | 3 => .ctlPg2 address value
  | 4 => .ctlPg3 address value
  | 5 => .ctlPg4 address value
  | 6 => .ctlPg5 address value
  | 7 => .ctlPg6 address value
  | 8 => .ctlPg7 address value
  | 9 => .ctlPg8 address value
  | 10 => .ctlPg9 address value
  | 11 => .ctlPg10 address value
  | 12 => .ctlPg11 address value
  | 13 => .ctlPg12 address value
  | 14 => .ctlRsv address value
  | _ => .ctlWide address value

/-- The capacity class with a size exponent (R6). -/
def capacityOfCode (code : BitVec 2) : CapacityClass :=
  match code.toNat with
  | 0 => .mib2
  | 1 => .mib4
  | 2 => .mib8
  | _ => .mib16

/-- The size exponent of a class as a 2-bit code. -/
def codeOfCapacity : CapacityClass → BitVec 2
  | .mib2 => 0
  | .mib4 => 1
  | .mib8 => 2
  | .mib16 => 3

/-- The split mode with a code; 3 names none. -/
def splitModeOfCode (code : BitVec 2) : Option SplitMode :=
  match code.toNat with
  | 0 => some .disabled
  | 1 => some .dualAddress
  | 2 => some .bitSelected
  | _ => none

/-- The 2-bit code of a split mode. -/
def codeOfSplitMode : SplitMode → BitVec 2
  | .disabled => 0
  | .dualAddress => 1
  | .bitSelected => 2

/-- The byte of flags of a configuration record. -/
def configFlags (c : ConfigRecord) : Byte :=
  BitVec.ofBool c.genmodFix ++ BitVec.ofBool c.hideSwitch ++ BitVec.ofBool c.wideModeAllowed ++
    codeOfSplitMode c.splitMode ++ BitVec.ofBool c.expansionInstalled ++ codeOfCapacity c.capacityClass

/-- The configuration record in five bytes (R64), if the split mode's code names a mode. -/
def configOfBytes (flags aLo aHi bLo bHi : Byte) : Option ConfigRecord :=
  match splitModeOfCode (flags.extractLsb' 3 2) with
  | none => none
  | some m => some
      { capacityClass := capacityOfCode (flags.extractLsb' 0 2)
        expansionInstalled := flags.getLsbD 2
        splitMode := m
        wideModeAllowed := flags.getLsbD 5
        hideSwitch := flags.getLsbD 6
        genmodFix := flags.getLsbD 7
        baseA := wordOfBytes aLo aHi
        baseB := wordOfBytes bLo bHi }

/-! ### The decoder -/

/-- Format `MEM-R` (R61). -/
def decodeRead : List Byte → Except DecodeError Instr
  | [lo, hi] => .ok (.rd (wordOfBytes lo hi))
  | _ => .error .wrongLength

/-- Format `MEM-W` (R62). -/
def decodeWrite : List Byte → Except DecodeError Instr
  | [lo, hi, v] => .ok (.wr (wordOfBytes lo hi) v)
  | _ => .error .wrongLength

/-- Format `CTL` (R63). -/
def decodeControl : List Byte → Except DecodeError Instr
  | [b0, b1, b2] =>
    if b2.extractLsb' 5 3 = 0#3 then
      .ok (controlRow (controlIndex b0) (controlAddress b0 b1 b2) (controlValue b2))
    else .error .paddingNotZero
  | _ => .error .wrongLength

/-- Format `RST` (R64). -/
def decodeReset : List Byte → Except DecodeError Instr
  | [flags, aLo, aHi, bLo, bHi] =>
    match configOfBytes flags aLo aHi bLo bHi with
    | some c => .ok (.reset c)
    | none => .error .splitModeCode
  | _ => .error .wrongLength

/-- Format `SW` (R65). -/
def decodeHide : List Byte → Except DecodeError Instr
  | [b] => if b.extractLsb' 1 7 = 0#7 then .ok (.hide (b.getLsbD 0)) else .error .paddingNotZero
  | _ => .error .wrongLength

/-- Format `PERSIST` without an operand (R66). -/
def decodeNoOperand (i : Instr) : List Byte → Except DecodeError Instr
  | [] => .ok i
  | _ => .error .wrongLength

/-- Format `PERSIST` with an image (R66). -/
def decodeLoad (img : Image) : Except DecodeError Instr :=
  if !rising img.cells then .error .imageNotRising
  else if !img.listsNoZero then .error .imageListsZero
  else if !img.inRange then .error .imageOutOfRange
  else if !img.lengthFits then .error .imageTooLong
  else .ok (.loadImage img)

/-- The decoder: total on every raw request, and what is no request is rejected by name. -/
def decode : PortRequest → Except DecodeError Instr
  | .fields .read bytes => decodeRead bytes
  | .fields .write bytes => decodeWrite bytes
  | .fields .controlBitWrite bytes => decodeControl bytes
  | .fields .reset bytes => decodeReset bytes
  | .fields .setHideSwitch bytes => decodeHide bytes
  | .fields .persistDefault bytes => decodeNoOperand .defaultImage bytes
  | .fields .persistSave bytes => decodeNoOperand .saveImage bytes
  | .persistLoad img => decodeLoad img

/-! ### The encoder -/

/-- A control write as the host puts it on the interface. -/
def encodeControl (index : BitVec 4) (address : Word) (value : Bool) : PortRequest :=
  .fields .controlBitWrite (controlBytes index address value)

/-- The raw request of an instruction (R61 to R66, R70). -/
def encode : Instr → PortRequest
  | .rd x => .fields .read [lowByte x, highByte x]
  | .wr x v => .fields .write [lowByte x, highByte x, v]
  | .ctlSel a v => encodeControl 0 a v
  | .ctlPg1 a v => encodeControl 1 a v
  | .ctlPg0 a v => encodeControl 2 a v
  | .ctlPg2 a v => encodeControl 3 a v
  | .ctlPg3 a v => encodeControl 4 a v
  | .ctlPg4 a v => encodeControl 5 a v
  | .ctlPg5 a v => encodeControl 6 a v
  | .ctlPg6 a v => encodeControl 7 a v
  | .ctlPg7 a v => encodeControl 8 a v
  | .ctlPg8 a v => encodeControl 9 a v
  | .ctlPg9 a v => encodeControl 10 a v
  | .ctlPg10 a v => encodeControl 11 a v
  | .ctlPg11 a v => encodeControl 12 a v
  | .ctlPg12 a v => encodeControl 13 a v
  | .ctlRsv a v => encodeControl 14 a v
  | .ctlWide a v => encodeControl 15 a v
  | .reset c => .fields .reset [configFlags c, lowByte c.baseA, highByte c.baseA, lowByte c.baseB, highByte c.baseB]
  | .hide b => .fields .setHideSwitch [0#7 ++ BitVec.ofBool b]
  | .loadImage img => .persistLoad img
  | .defaultImage => .fields .persistDefault []
  | .saveImage => .fields .persistSave []

/-! ### A word of the opcode table -/

/-- A number as bytes, the least significant first. -/
def bytesOfNat : Nat → Nat → List Byte
  | 0, _ => []
  | n + 1, w => BitVec.ofNat 8 w :: bytesOfNat n (w / 256)

/-- The raw request with the bits of a word of the opcode table. The table gives bits (`match` and `mask` over
`bitIndex[3:0]`) to the `CTL` rows alone, at the lowest place of the word, where the packed `CTL` tuple has them; so the word is
read as a control write, with zeros above it up to the tuple's three bytes (notes/assumptions/10). -/
def tableRequest (nbits w : Nat) : PortRequest :=
  .fields .controlBitWrite (bytesOfNat (max 3 ((nbits + 7) / 8)) w)

/-- The instruction the decoder reads from a word of the opcode table (notes/assumptions/10). -/
def decodeTableWord (nbits w : Nat) : Option Instr :=
  match decode (tableRequest nbits w) with
  | .ok i => some i
  | .error _ => none

end Sys2Proof
end

