-- ==== Sys2Proof/Machine/State.lean ====
section
/-! DEFINITION. The state of the block (10_state.md R20) as plain data, with the spec's bookkeeping and the model's two
host-side fields; the reasons a step can stop; the state right after reset. -/

namespace Sys2Proof.Machine

/-- The bytes of a store that differ from what an unlisted offset reads as, by rising offset. -/
abbrev Memory := List Host.Cell

/-- The bookkeeping `phase` (70_reset_and_hazards.md R172); not hardware state. -/
inductive Phase where
  | constructed
  | imageReady
  | running
  deriving DecidableEq, Repr

/-- What a completed request returned to the host (60_exceptions.md R150). -/
inductive Result where
  /-- The request returns nothing. -/
  | nothing
  /-- `RD`: the byte, or `none` for a bus that is not driven (R82). -/
  | byte (b : Option Byte)
  /-- `SAVE`: the image (R132). -/
  | image (img : Image)
  deriving DecidableEq, Repr

structure State where
  /-- The page register (R21). -/
  page : Page
  /-- R22. -/
  selected : Bool
  /-- R23. -/
  wideModeActive : Bool
  /-- R25. -/
  hideSwitch : Bool
  /-- The configuration record of the latest reset, or of construction before it (R24, R172). -/
  cfg : ConfigRecord
  /-- `MainStore` (R27). -/
  mainStore : Memory
  /-- `FirmwareStore` (R27). -/
  firmwareStore : Memory
  /-- `ExpansionStore` (R27), which exists exactly when `cfg.expansionInstalled` is true (R26(d)). -/
  expansionStore : Memory
  /-- R172. -/
  phase : Phase
  /-- The window parameters (R7), fixed for the machine (notes/assumptions/1). -/
  windows : WindowParams
  /-- The model's own: the requests the host has issued, the oldest first (notes/assumptions/8). -/
  port : List PortRequest
  /-- The model's own: what the last completed request returned (notes/assumptions/12). -/
  result : Result
  /-- The model's own: the number of the session that the construction began, by which the free values are drawn
  (notes/assumptions/21). -/
  session : Nat
  deriving DecidableEq, Repr

/-- Why the machine stops with a fault. -/
inductive Fault where
  /-- Raised by `RD` and `WR` where the decoder's store offset is not below the size of its store. Safe: the spec says
  that no such byte exists and that no state it allows decodes to one (R85), so a claim can only be lost
  (notes/assumptions/14). -/
  | storeOffsetOutOfRange
  deriving DecidableEq, Repr

/-- Why a request has no meaning. The first five are the spec's own closed set (60_exceptions.md R150). -/
inductive Refusal where
  /-- Raised by `RD` and `WR` whose decode asks a `GENMOD` predicate that has no value (R152). Safe: it "errs toward
  unprovable" (R150). -/
  | genmodWindowUnknown
  /-- Raised by `LOAD` and `DEFAULT` after the first `RESET` (R153). Safe, as R150 says. -/
  | persistenceAfterReset
  /-- Raised by `RESET` whose record changes `capacityClass` or `expansionInstalled` (R171). Safe, as R150 says. -/
  | sessionConfigChanged
  /-- Raised by `RD`, `WR`, `CTL` and `HIDE` before the first `RESET` (R172). Safe, as R150 says. -/
  | notReset
  /-- Raised by `RESET` before any `LOAD` or `DEFAULT` (R172). Safe, as R150 says. -/
  | noImage
  /-- Raised by the step where the host's bytes are no request of the block at all. Safe: the spec has no such request
  (R73), so there is nothing to claim of it (notes/assumptions/9). -/
  | malformedRequest (e : DecodeError)
  /-- Raised by the dispatch for an instruction that has no meaning yet; none is left. Safe. -/
  | notModelled (mnemonic : String)
  deriving DecidableEq, Repr

/-- The machine right after reset (R33, R170): the registers as R170 sets them under the record `resetConfig`
(DESIGN CHOICE, unsafe, notes/assumptions/6), the stores as a `DEFAULT` leaves them (DESIGN CHOICE, unsafe,
notes/assumptions/5), the default windows (notes/assumptions/1), no request pending, and
the session number 0 (DESIGN CHOICE, notes/assumptions/21). -/
def State.reset : State where
  page := 0
  selected := false
  wideModeActive := false
  hideSwitch := resetConfig.hideSwitch
  cfg := resetConfig
  mainStore := []
  firmwareStore := []
  expansionStore := []
  phase := .running
  windows := defaultWindows
  port := []
  result := .nothing
  session := 0

end Sys2Proof.Machine
end

