-- ==== Sys2Proof/Machine/Ops.lean ====
section
/-! DEFINITION. The named operations over the stores, the registers and images. The block takes no exception and returns
from none (60_exceptions.md R151, R154, R156), so no operation does. -/

namespace Sys2Proof.Machine

/-! ### Memory: one canonical form -/

/-- The byte listed at an offset. -/
def Memory.find : Memory → Nat → Option Byte
  | [], _ => none
  | (a, b) :: rest, k => if a = k then some b else Memory.find rest k

/-- The memory with a byte listed at an offset, in its place. -/
def Memory.insert : Memory → Nat → Byte → Memory
  | [], k, v => [(k, v)]
  | (a, b) :: rest, k, v =>
    if k < a then (k, v) :: (a, b) :: rest
    else if k = a then (k, v) :: rest
    else (a, b) :: Memory.insert rest k v

/-- The memory with nothing listed at an offset. -/
def Memory.erase (m : Memory) (k : Nat) : Memory := m.filter fun c => c.1 != k

/-- A write of one byte, where an unlisted offset reads as `unlisted`: writing that value lists nothing. -/
def Memory.write (unlisted : Option Byte) (m : Memory) (k : Nat) (v : Byte) : Memory :=
  if unlisted = some v then Memory.erase m k else Memory.insert m k v

/-- The canonical form: offsets rise, lie below the store's size, and none is listed with what it would read as
unlisted. -/
def Memory.wf (unlisted : Option Byte) (size : Nat) (m : Memory) : Bool :=
  rising m && m.all fun c => decide (c.1 < size) && decide (unlisted ≠ some c.2)

/-- The bytes at offsets `lo` to `lo + len - 1`, numbered from 0. -/
def Memory.slice (m : Memory) (lo len : Nat) : Memory :=
  m.filterMap fun c => if lo ≤ c.1 ∧ c.1 < lo + len then some (c.1 - lo, c.2) else none

/-- The bytes moved up by a distance. -/
def Memory.shift (m : Memory) (d : Nat) : Memory := m.map fun c => (c.1 + d, c.2)

/-! ### Images -/

/-- Byte `i` of an image (R131). -/
def imageByte (img : Image) (i : Nat) : Byte := (Memory.find img.cells i).getD 0#8

/-- The cells of a byte sequence that starts at offset `k`: every byte but 0x00. -/
def cellsOfBytes : Nat → List Byte → List Host.Cell
  | _, [] => []
  | k, b :: rest => if b = 0#8 then cellsOfBytes (k + 1) rest else (k, b) :: cellsOfBytes (k + 1) rest

/-- The image of a byte sequence. -/
def imageOfBytes (bytes : List Byte) : Image := ⟨bytes.length, cellsOfBytes 0 bytes⟩

/-! ### Registers: the only updates of State -/

def State.setPage (s : State) (p : Page) : State := { s with page := p }

def State.setSelected (s : State) (b : Bool) : State := { s with selected := b }

def State.setWide (s : State) (b : Bool) : State := { s with wideModeActive := b }

def State.setHide (s : State) (b : Bool) : State := { s with hideSwitch := b }

def State.setCfg (s : State) (c : ConfigRecord) : State := { s with cfg := c }

def State.setPhase (s : State) (p : Phase) : State := { s with phase := p }

def State.setPort (s : State) (q : List PortRequest) : State := { s with port := q }

/-- The request returns `r` (R150). -/
def State.respond (s : State) (r : Result) : State := { s with result := r }

/-- The listed bytes of a store. -/
def State.store (s : State) : Region → Memory
  | .main => s.mainStore
  | .firmware => s.firmwareStore
  | .expansion => s.expansionStore

def State.setStore (s : State) (r : Region) (m : Memory) : State :=
  match r with
  | .main => { s with mainStore := m }
  | .firmware => { s with firmwareStore := m }
  | .expansion => { s with expansionStore := m }

/-- `set_bit(x, i, b)` (00_scope.md R10): `x` with bit `i` replaced by `b`. -/
def setBit (x : Page) (i : Nat) (b : Bool) : Page :=
  (x &&& ~~~(1#13 <<< i)) ||| (if b then 1#13 <<< i else 0#13)

/-! ### The byte stores (R27) -/

/-- The size of a store in bytes (R27); `ExpansionStore` exists only where it is installed (R26(d)). -/
def State.storeSize (s : State) : Region → Nat
  | .main => capacity s.cfg.capacityClass
  | .firmware => firmwareBytes
  | .expansion => if s.cfg.expansionInstalled then expansionBytes else 0

/-- WHAT AN UNLISTED OFFSET READS AS. In `MainStore` and `FirmwareStore` 0x00 once an image has been loaded or defaulted
(R133, R134), and nothing before (R173: "no value"). In `ExpansionStore` nothing, ever: construction leaves a draw with no
law (R135). Where it is nothing, a read gives the free value `Config.initialByte` (notes/assumptions/3, 4, 15, 21). -/
def State.unlisted (s : State) : Region → Option Byte
  | .main => if s.phase = .constructed then none else some 0#8
  | .firmware => if s.phase = .constructed then none else some 0#8
  | .expansion => none

/-- The byte that a store holds at an offset. -/
def State.storeByte (s : State) (r : Region) (o : Nat) : Byte :=
  match Memory.find (s.store r) o with
  | some b => b
  | none => (s.unlisted r).getD (Config.initialByte s.session r o)

/-- A place in a store, `(r, o)` of R10. -/
structure StoreRef where
  region : Region
  off : Nat
  deriving DecidableEq, Repr

/-- The place exists. -/
def State.hasRef (s : State) (ref : StoreRef) : Bool := decide (ref.off < s.storeSize ref.region)

/-- `MemRead((r, o), 1)` (R10). -/
def State.memRead (s : State) (ref : StoreRef) : Except Fault Byte :=
  if s.hasRef ref then .ok (s.storeByte ref.region ref.off) else .error .storeOffsetOutOfRange

/-- The state with one byte of one store changed. -/
def State.putByte (s : State) (ref : StoreRef) (v : Byte) : State :=
  s.setStore ref.region (Memory.write (s.unlisted ref.region) (s.store ref.region) ref.off v)

/-- `MemWrite((r, o), 1, v)` (R10). -/
def State.memWrite (s : State) (ref : StoreRef) (v : Byte) : Except Fault State :=
  if s.hasRef ref then .ok (s.putByte ref v) else .error .storeOffsetOutOfRange

/-! ### Phases and fetching -/

/-- The outcome of every request. -/
abbrev StepOutcome := Host.Outcome State Fault Refusal

/-- `RD`, `WR`, `CTL` and `HIDE` are refused before the first `RESET` (R172). -/
def whenRunning (s : State) (k : StepOutcome) : StepOutcome :=
  if s.phase = .running then k else .refused .notReset

/-- `LOAD` and `DEFAULT` are refused after the first `RESET` (R153). -/
def beforeReset (s : State) (k : StepOutcome) : StepOutcome :=
  if s.phase = .running then .refused .persistenceAfterReset else k

/-- The next request the host has issued, and the state without it. -/
def State.fetch (s : State) : Option (PortRequest × State) :=
  match s.port with
  | [] => none
  | r :: rest => some (r, s.setPort rest)

/-- The state with a request issued ahead of all others. -/
def State.issueFirst (s : State) (r : PortRequest) : State := s.setPort (r :: s.port)

end Sys2Proof.Machine
end

