-- ==== Sys2Proof/Machine/Operands.lean ====
section
/-! DEFINITION. The fields cut from a bus offset (30_encoding.md R67), the store offsets assembled from them (R68), the
window predicates (40_bus_access.md R81) and the one decoder that `RD` and `WR` share (R80, R88). -/

namespace Sys2Proof.Machine

/-! ### Fields of an offset (R67) -/

/-- `win`, held as `offset & 0xE000`: the start of the 8-KiB window that the offset lies in. -/
def winBase (x : Word) : Word := x &&& 0xE000#16

/-- `wrel = offset & 0x1FFF`. -/
def wrel (x : Word) : Word := x &&& 0x1FFF#16

/-- `ovl == 0b11`: the offset is in the top 2 KiB of its window. -/
def inOverlay (x : Word) : Bool := x &&& 0x1800#16 == 0x1800#16

/-- `ipo = offset & 0x7FF`. -/
def ipo (x : Word) : Word := x &&& 0x7FF#16

/-! ### Store offsets (R68) -/

/-- Plain overlay: `(page << 11) | ipo`. -/
def overlayOffset (page : Page) (x : Word) : Nat :=
  (page.setWidth 24 <<< 11 ||| (ipo x).setWidth 24).toNat

/-- Wide block: `((page & ~0x3) << 11) | wrel`. -/
def wideOffset (page : Page) (x : Word) : Nat :=
  ((page &&& ~~~0x3#13).setWidth 24 <<< 11 ||| (wrel x).setWidth 24).toNat

/-- Firmware: `wrel`. -/
def firmwareOffset (x : Word) : Nat := (wrel x).toNat

/-- Expansion: `EXP_OFF[k] | wrel`. -/
def expansionOffset (w : ExpansionWindow) (x : Word) : Nat := (w.off ||| wrel x).toNat

/-! ### Window predicates (R81) -/

/-- The offset is in the set. -/
def offsetIn (ws : OffsetSet) (x : Word) : Bool := ws.any fun r => r.lo.ule x && x.ule r.hi

/-- The four expansion sub-windows, `k = 0..3`. -/
def expansionWindows (w : WindowParams) : List ExpansionWindow := [w.exp0, w.exp1, w.exp2, w.exp3]

/-- `inExp(k, offset)`. -/
def inExp (x : Word) (w : ExpansionWindow) : Bool := winBase x == w.base

/-- The expansion sub-window that the offset hits, the one with the smallest `k`, where expansion is installed. -/
def expansionHit (s : State) (x : Word) : Option ExpansionWindow :=
  if s.cfg.expansionInstalled then (expansionWindows s.windows).find? (inExp x) else none

/-- A window test: by the window's base, or by the `GENMOD` predicate where `genmodFix` is true, which refuses if the
model is given no value for it (R152). -/
def windowTest (s : State) (base : Word) (genmod : Option OffsetSet) (x : Word) : Except Refusal Bool :=
  if s.cfg.genmodFix then
    match genmod with
    | some ws => .ok (offsetIn ws x)
    | none => .error .genmodWindowUnknown
  else .ok (winBase x == base)

/-- `inFw(offset)`. -/
def inFw (s : State) (x : Word) : Except Refusal Bool := windowTest s s.windows.fwBase s.windows.genmodFw x

/-- `inCart(offset)`. -/
def inCart (s : State) (x : Word) : Except Refusal Bool := windowTest s s.windows.cartBase s.windows.genmodCart x

/-! ### The decoder (R80) -/

/-- Step 4, plain paged mode. -/
def decodePlain (s : State) (x : Word) : Except Refusal (Option StoreRef) :=
  match inFw s x with
  | .error r => .error r
  | .ok true => if inOverlay x then .ok (some ⟨.main, overlayOffset s.page x⟩) else .ok (some ⟨.firmware, firmwareOffset x⟩)
  | .ok false => .ok none

/-- Step 5, wide mode. -/
def decodeWide (s : State) (x : Word) : Except Refusal (Option StoreRef) :=
  match inFw s x with
  | .error r => .error r
  | .ok true => .ok (some ⟨.firmware, firmwareOffset x⟩)
  | .ok false =>
    match inCart s x with
    | .error r => .error r
    | .ok true => .ok (some ⟨.main, wideOffset s.page x⟩)
    | .ok false => .ok none

/-- `decode(offset)` (R80): the place that an offset reaches, or no access; the steps in the spec's order. -/
def busDecode (s : State) (x : Word) : Except Refusal (Option StoreRef) :=
  match expansionHit s x with
  | some w => .ok (some ⟨.expansion, expansionOffset w x⟩)
  | none =>
    if s.hideSwitch then .ok none
    else if !s.selected && !s.wideModeActive then .ok none
    else if !s.wideModeActive then decodePlain s x
    else decodeWide s x

end Sys2Proof.Machine
end

