-- ==== Sys2Proof/Machine/BusAccess.lean ====
section
/-! DEFINITION. The bus requests `RD` and `WR` (40_bus_access.md R82, R83). -/

namespace Sys2Proof.Machine

/-- `RD` (R82): the byte that the decoder selects, or no value; it changes no state. -/
def execRd (x : Word) (s : State) : StepOutcome :=
  whenRunning s <|
    match busDecode s x with
    | .error r => .refused r
    | .ok none => .next (s.respond (.byte none))
    | .ok (some ref) =>
      match s.memRead ref with
      | .error f => .fault f
      | .ok b => .next (s.respond (.byte (some b)))

/-- `WR` (R83): one byte of the store that the decoder selects, or nothing. -/
def execWr (x : Word) (v : Byte) (s : State) : StepOutcome :=
  whenRunning s <|
    match busDecode s x with
    | .error r => .refused r
    | .ok none => .next (s.respond .nothing)
    | .ok (some ref) =>
      match s.memWrite ref v with
      | .error f => .fault f
      | .ok t => .next (t.respond .nothing)

end Sys2Proof.Machine
end

