-- ==== Sys2Proof/Machine/Flags.lean ====
section
/-! DEFINITION. The mode flags: the addressing mode they make up (60_exceptions.md R157), the rules by which a control bit
writes `selected`, `wideModeActive` and the page bits (41_control_register.md R100 to R115), and the drive-select bit (R117). -/

namespace Sys2Proof.Machine

/-- The block's addressing modes (R157), not stored (R31). -/
inductive AddressingMode where
  | hidden
  | deselected
  | plainPaged
  | wide
  deriving DecidableEq, Repr

/-- The addressing mode, a pure function of the flags (R31, R157). -/
def addressingMode (s : State) : AddressingMode :=
  if s.hideSwitch then .hidden
  else if s.wideModeActive then .wide
  else if s.selected then .plainPaged
  else .deselected

/-- Split mode is on. -/
def splitOn (s : State) : Bool := s.cfg.splitMode != .disabled

/-- The address gate (R95): the address is one of the two bases. -/
def qualifies (s : State) (address : Word) : Bool := address == s.cfg.baseA || address == s.cfg.baseB

/-! ### Bit rules -/

/-- Bit 0 (R100). -/
def selectRule (v : Bool) (s : State) : State := s.setSelected v

/-- Bits 1 and 2 (R101, R102): page bit `i`, while wide mode is off. -/
def lowPageRule (i : Nat) (v : Bool) (s : State) : State :=
  if s.wideModeActive then s else s.setPage (setBit s.page i v)

/-- Bits 3 to 9 (R103 to R109): page bit `i`, in every mode. -/
def midPageRule (i : Nat) (v : Bool) (s : State) : State := s.setPage (setBit s.page i v)

/-- Bits 10 to 13 (R110 to R113): control bit `k` writes page bit `i` if it is not above the boundary, and is not the
boundary itself while split mode is on. -/
def highPageRule (k i : Nat) (v : Bool) (s : State) : State :=
  if k ≤ boundary s.cfg.capacityClass ∧ ¬(k = boundary s.cfg.capacityClass ∧ splitOn s) then
    s.setPage (setBit s.page i v)
  else s

/-- Bit 14 (R114): reserved, no effect. -/
def reservedRule (s : State) : State := s

/-- Bit 15 (R115). -/
def wideRule (v : Bool) (s : State) : State := if s.cfg.wideModeAllowed then s.setWide v else s

/-! ### Drive select (R117) -/

/-- The drive-select bit that a write of control bit `k` at an address forces, if split mode is on. -/
def driveBit (s : State) (address : Word) (k : Nat) : Option Bool :=
  match s.cfg.splitMode with
  | .disabled => none
  | .dualAddress => some (address == s.cfg.baseB)
  | .bitSelected => some (decide (7 < k))

/-- The drive-select step: page bit `boundary - 1` takes the forced value. -/
def driveSelect (address : Word) (k : Nat) (s : State) : State :=
  match driveBit s address k with
  | none => s
  | some ds => s.setPage (setBit s.page (boundary s.cfg.capacityClass - 1) ds)

end Sys2Proof.Machine
end

