-- ==== Sys2Proof/Machine/Control.lean ====
section
/-! DEFINITION. The control-register requests, `CTL` bits 0 to 15 (41_control_register.md). The map from control bit to page
bit is the explicit one of 30_encoding.md R69, one definition for each bit, as R118 asks. -/

namespace Sys2Proof.Machine

/-- The complete `CTL` request (R116) of control bit `k` with that bit's rule: the address gate (R95), the bit rule, then
the drive-select step (R97). -/
def controlRequest (address : Word) (k : Nat) (rule : State → State) (s : State) : StepOutcome :=
  whenRunning s <|
    if qualifies s address then .next ((driveSelect address k (rule s)).respond .nothing)
    else .next (s.respond .nothing)

/-- `CTL.SEL`, bitIndex 0 (R100). -/
def execCtlSel (address : Word) (v : Bool) (s : State) : StepOutcome := controlRequest address 0 (selectRule v) s

/-- `CTL.PG1`, crossed: control bit 1 writes page bit 1, bitIndex 1 (R101). -/
def execCtlPg1 (address : Word) (v : Bool) (s : State) : StepOutcome := controlRequest address 1 (lowPageRule 1 v) s

/-- `CTL.PG0`, crossed: control bit 2 writes page bit 0, bitIndex 2 (R102). -/
def execCtlPg0 (address : Word) (v : Bool) (s : State) : StepOutcome := controlRequest address 2 (lowPageRule 0 v) s

/-- `CTL.PG2`, bitIndex 3 (R103). -/
def execCtlPg2 (address : Word) (v : Bool) (s : State) : StepOutcome := controlRequest address 3 (midPageRule 2 v) s

/-- `CTL.PG3`, bitIndex 4 (R104). -/
def execCtlPg3 (address : Word) (v : Bool) (s : State) : StepOutcome := controlRequest address 4 (midPageRule 3 v) s

/-- `CTL.PG4`, bitIndex 5 (R105). -/
def execCtlPg4 (address : Word) (v : Bool) (s : State) : StepOutcome := controlRequest address 5 (midPageRule 4 v) s

/-- `CTL.PG5`, bitIndex 6 (R106). -/
def execCtlPg5 (address : Word) (v : Bool) (s : State) : StepOutcome := controlRequest address 6 (midPageRule 5 v) s

/-- `CTL.PG6`, bitIndex 7 (R107). -/
def execCtlPg6 (address : Word) (v : Bool) (s : State) : StepOutcome := controlRequest address 7 (midPageRule 6 v) s

/-- `CTL.PG7`, bitIndex 8 (R108). -/
def execCtlPg7 (address : Word) (v : Bool) (s : State) : StepOutcome := controlRequest address 8 (midPageRule 7 v) s

/-- `CTL.PG8`, bitIndex 9 (R109). -/
def execCtlPg8 (address : Word) (v : Bool) (s : State) : StepOutcome := controlRequest address 9 (midPageRule 8 v) s

/-- `CTL.PG9`, bitIndex 10 (R110). -/
def execCtlPg9 (address : Word) (v : Bool) (s : State) : StepOutcome := controlRequest address 10 (highPageRule 10 9 v) s

/-- `CTL.PG10`, bitIndex 11 (R111). -/
def execCtlPg10 (address : Word) (v : Bool) (s : State) : StepOutcome := controlRequest address 11 (highPageRule 11 10 v) s

/-- `CTL.PG11`, bitIndex 12 (R112). -/
def execCtlPg11 (address : Word) (v : Bool) (s : State) : StepOutcome := controlRequest address 12 (highPageRule 12 11 v) s

/-- `CTL.PG12`, bitIndex 13 (R113). -/
def execCtlPg12 (address : Word) (v : Bool) (s : State) : StepOutcome := controlRequest address 13 (highPageRule 13 12 v) s

/-- `CTL.RSV`, bitIndex 14 (R114). -/
def execCtlRsv (address : Word) (_v : Bool) (s : State) : StepOutcome := controlRequest address 14 (reservedRule) s

/-- `CTL.WIDE`, bitIndex 15 (R115). -/
def execCtlWide (address : Word) (v : Bool) (s : State) : StepOutcome := controlRequest address 15 (wideRule v) s

/-- The script pseudo-request `SETPAGE address, p` (R74): control bits 2, 1, then 3 to `W` in rising order, without the
boundary while split mode is on, each with its page bit of `p`. -/
def setPageScript (c : ConfigRecord) (address : Word) (p : Page) : List Instr :=
  [.ctlPg0 address (p.getLsbD 0), .ctlPg1 address (p.getLsbD 1), .ctlPg2 address (p.getLsbD 2),
    .ctlPg3 address (p.getLsbD 3), .ctlPg4 address (p.getLsbD 4), .ctlPg5 address (p.getLsbD 5),
    .ctlPg6 address (p.getLsbD 6), .ctlPg7 address (p.getLsbD 7), .ctlPg8 address (p.getLsbD 8)] ++
  ([(10, .ctlPg9 address (p.getLsbD 9)), (11, .ctlPg10 address (p.getLsbD 10)),
    (12, .ctlPg11 address (p.getLsbD 11)), (13, .ctlPg12 address (p.getLsbD 12))].filter
      fun (ki : Nat × Instr) => decide (ki.1 ≤ boundary c.capacityClass) &&
        !(ki.1 == boundary c.capacityClass && c.splitMode != .disabled)).map Prod.snd

end Sys2Proof.Machine
end

