-- ==== Sys2Proof/Machine/Persistence.lean ====
section
/-! DEFINITION. The persistence requests `LOAD`, `DEFAULT` and `SAVE` (42_host_and_persistence.md R131 to R134). -/

namespace Sys2Proof.Machine

/-- Both battery-backed stores replaced, which makes an image ready (R172). -/
def State.withImage (s : State) (main firmware : Memory) : State :=
  (((s.setStore .main main).setStore .firmware firmware).setPhase .imageReady).respond .nothing

/-- `MainStore` after the load of an image (R133): what stands before the firmware tail, cut or zero-padded to the
capacity; all zero where the image is too short for the tail. -/
def loadedMain (c : CapacityClass) (img : Image) : Memory :=
  if img.length < firmwareBytes then []
  else Memory.slice img.cells 0 (min (img.length - firmwareBytes) (capacity c))

/-- `FirmwareStore` after the load of an image (R133): its last 8192 bytes; all zero where it has fewer. -/
def loadedFirmware (img : Image) : Memory :=
  if img.length < firmwareBytes then []
  else Memory.slice img.cells (img.length - firmwareBytes) firmwareBytes

/-- `LOAD` (R133). -/
def execLoad (img : Image) (s : State) : StepOutcome :=
  beforeReset s (.next (s.withImage (loadedMain s.cfg.capacityClass img) (loadedFirmware img)))

/-- `DEFAULT` (R134). -/
def execDefault (s : State) : StepOutcome :=
  beforeReset s (.next (s.withImage [] []))

/-- The bytes of a store, in index order. -/
def State.storeBytes (s : State) (r : Region) (n : Nat) : List Byte := (List.range n).map (s.storeByte r)

/-- The image that `SAVE` emits (R131, R132): `MainStore`, then `FirmwareStore`. Where an image has been loaded or
defaulted, an unlisted byte is 0x00 in the stores as in the image, so the listed bytes are enough. Before that the
bytes are free values (notes/assumptions/4), written out one by one. -/
def savedImage (s : State) : Image :=
  let n := capacity s.cfg.capacityClass
  if s.phase = .constructed then
    imageOfBytes (s.storeBytes .main n ++ s.storeBytes .firmware firmwareBytes)
  else
    ⟨n + firmwareBytes, Memory.slice s.mainStore 0 n ++ Memory.shift (Memory.slice s.firmwareStore 0 firmwareBytes) n⟩

/-- `SAVE` (R132): returns the image and writes no state. It is never refused (R153). -/
def execSave (s : State) : StepOutcome := .next (s.respond (.image (savedImage s)))

end Sys2Proof.Machine
end

