-- ==== Sys2Proof/Machine/SystemReset.lean ====
section
/-! DEFINITION. The system reset and the construction before it (70_reset_and_hazards.md R170 to R172), and the hide
switch (42_host_and_persistence.md R130). -/

namespace Sys2Proof.Machine

/-- Construction with the configuration `c0`, which begins the session number `n` (R172). The stores and the four runtime
registers hold no value: the registers are free values, the stores list nothing (notes/assumptions/4). DESIGN CHOICE,
safe: `n` leaves open whether a later construction draws the same values (R8, R163; notes/assumptions/21). -/
def construct (n : Nat) (c0 : ConfigRecord) (w : WindowParams) (q : List PortRequest) : State where
  page := Config.initialPage n
  selected := Config.initialSelected n
  wideModeActive := Config.initialWide n
  hideSwitch := Config.initialHide n
  cfg := c0
  mainStore := []
  firmwareStore := []
  expansionStore := []
  phase := .constructed
  windows := w
  port := q
  result := .nothing
  session := n

/-- The record keeps the two fields that size the stores (R171). -/
def keepsSizes (s : State) (c : ConfigRecord) : Bool :=
  c.capacityClass == s.cfg.capacityClass && c.expansionInstalled == s.cfg.expansionInstalled

/-- The registers that a reset writes (R170). No store is written. -/
def State.resetTo (s : State) (c : ConfigRecord) : State :=
  (((((s.setCfg c).setPage 0).setSelected false).setWide false).setHide c.hideSwitch).setPhase .running

/-- `RESET` (R170), with its two refusals in the order of its pseudocode (R155). -/
def execReset (c : ConfigRecord) (s : State) : StepOutcome :=
  if s.phase = .constructed then .refused .noImage
  else if keepsSizes s c then .next ((s.resetTo c).respond .nothing)
  else .refused .sessionConfigChanged

/-- `HIDE` (R130). -/
def execHide (b : Bool) (s : State) : StepOutcome :=
  whenRunning s (.next ((s.setHide b).respond .nothing))

end Sys2Proof.Machine
end

