-- ==== Sys2Proof/Machine/Dispatch.lean ====
section
/-! DEFINITION. One arm for each instruction. -/

namespace Sys2Proof.Machine

def exec (i : Instr) (s : State) : Host.Outcome State Fault Refusal :=
  match i with
  | .rd x => Sys2Proof.Machine.execRd x s
  | .wr x v => Sys2Proof.Machine.execWr x v s
  | .ctlSel a v => Sys2Proof.Machine.execCtlSel a v s
  | .ctlPg1 a v => Sys2Proof.Machine.execCtlPg1 a v s
  | .ctlPg0 a v => Sys2Proof.Machine.execCtlPg0 a v s
  | .ctlPg2 a v => Sys2Proof.Machine.execCtlPg2 a v s
  | .ctlPg3 a v => Sys2Proof.Machine.execCtlPg3 a v s
  | .ctlPg4 a v => Sys2Proof.Machine.execCtlPg4 a v s
  | .ctlPg5 a v => Sys2Proof.Machine.execCtlPg5 a v s
  | .ctlPg6 a v => Sys2Proof.Machine.execCtlPg6 a v s
  | .ctlPg7 a v => Sys2Proof.Machine.execCtlPg7 a v s
  | .ctlPg8 a v => Sys2Proof.Machine.execCtlPg8 a v s
  | .ctlPg9 a v => Sys2Proof.Machine.execCtlPg9 a v s
  | .ctlPg10 a v => Sys2Proof.Machine.execCtlPg10 a v s
  | .ctlPg11 a v => Sys2Proof.Machine.execCtlPg11 a v s
  | .ctlPg12 a v => Sys2Proof.Machine.execCtlPg12 a v s
  | .ctlRsv a v => Sys2Proof.Machine.execCtlRsv a v s
  | .ctlWide a v => Sys2Proof.Machine.execCtlWide a v s
  | .reset c => Sys2Proof.Machine.execReset c s
  | .hide b => Sys2Proof.Machine.execHide b s
  | .loadImage img => Sys2Proof.Machine.execLoad img s
  | .defaultImage => Sys2Proof.Machine.execDefault s
  | .saveImage => Sys2Proof.Machine.execSave s

end Sys2Proof.Machine
end

