-- ==== Sys2Proof/Machine/Step.lean ====
section
/-! DEFINITION. One step: the block runs the oldest request that the host has issued, to completion (20_memory.md R48), and
where the host has issued none it does nothing (10_state.md R29; notes/assumptions/8). -/

namespace Sys2Proof.Machine

/-- One step of the block. -/
def step (s : State) : Host.Outcome State Fault Refusal :=
  match s.fetch with
  | none => .next s
  | some (r, t) =>
    match decode r with
    | .error e => .refused (.malformedRequest e)
    | .ok i => exec i t

/-- The state with the request of an opcode-table word issued ahead of all others (notes/assumptions/10). -/
def State.withFetchWord (s : State) (nbits w : Nat) : State := s.issueFirst (tableRequest nbits w)

end Sys2Proof.Machine
end

