-- ==== Sys2Proof/Safety.lean ====
section
/-! DEFINITION. What counts as a good state and a good run, in the terms the claims use. -/

namespace Sys2Proof.Machine

/-! ### The invariants of every reachable state (10_state.md R26) -/

/-- R26(a): once the block has been reset, `page < 2^W`. -/
abbrev PageFits (s : State) : Prop := s.phase = .running → s.page.toNat < 2 ^ pageWidth s.cfg.capacityClass

/-- R26(b): once the block has been reset, wide mode is active only where it is allowed. -/
abbrev WideOnlyIfAllowed (s : State) : Prop :=
  s.phase = .running → s.wideModeActive = true → s.cfg.wideModeAllowed = true

/-- The premise of R85 on the window parameters: `EXP_OFF[k] <= 0x6000`. -/
abbrev ExpansionOffsetsFit (w : WindowParams) : Prop := ∀ e ∈ expansionWindows w, e.off.toNat ≤ 0x6000

/-- A store's memory is in its canonical form and lies inside the store. -/
abbrev StoreWf (s : State) (r : Region) : Prop := Memory.wf (s.unlisted r) (s.storeSize r) (s.store r) = true

/-- The invariant of the model. `StoreWf` of `expansion` says R26(d) too: where it is not installed, nothing is listed. -/
abbrev Inv (s : State) : Prop :=
  PageFits s ∧ WideOnlyIfAllowed s ∧ ExpansionOffsetsFit s.windows ∧
    StoreWf s .main ∧ StoreWf s .firmware ∧ StoreWf s .expansion

/-- Each window predicate that the decoder may ask has a value (R81, R152). -/
abbrev WindowsKnown (s : State) : Prop :=
  s.cfg.genmodFix = false ∨ (s.windows.genmodFw.isSome = true ∧ s.windows.genmodCart.isSome = true)

/-! ### Runs -/

/-- The requests run one after another (R48), up to the first that does not complete (R150). -/
def runRequests : List Instr → State → StepOutcome
  | [], s => .next s
  | i :: rest, s =>
    match exec i s with
    | .next t => runRequests rest t
    | .fault f => .fault f
    | .refused r => .refused r

/-- No `WR` of the run is decoded to the place `ref`. -/
def Untouched (ref : StoreRef) : List Instr → State → Prop
  | [], _ => True
  | i :: rest, s =>
    (∀ x v, i = .wr x v → busDecode s x ≠ .ok (some ref)) ∧ ∀ t, exec i s = .next t → Untouched ref rest t

/-- What a request returned, if it completed. -/
def returned : StepOutcome → Option Result
  | .next t => some t.result
  | .fault _ => none
  | .refused _ => none

/-! ### Control writes -/

/-- The `(address, bitIndex, value)` of a control write (R63). -/
def controlTuple : Instr → Option (Word × Nat × Bool)
  | .ctlSel a v => some (a, 0, v)
  | .ctlPg1 a v => some (a, 1, v)
  | .ctlPg0 a v => some (a, 2, v)
  | .ctlPg2 a v => some (a, 3, v)
  | .ctlPg3 a v => some (a, 4, v)
  | .ctlPg4 a v => some (a, 5, v)
  | .ctlPg5 a v => some (a, 6, v)
  | .ctlPg6 a v => some (a, 7, v)
  | .ctlPg7 a v => some (a, 8, v)
  | .ctlPg8 a v => some (a, 9, v)
  | .ctlPg9 a v => some (a, 10, v)
  | .ctlPg10 a v => some (a, 11, v)
  | .ctlPg11 a v => some (a, 12, v)
  | .ctlPg12 a v => some (a, 13, v)
  | .ctlRsv a v => some (a, 14, v)
  | .ctlWide a v => some (a, 15, v)
  | .rd _ => none
  | .wr _ _ => none
  | .reset _ => none
  | .hide _ => none
  | .loadImage _ => none
  | .defaultImage => none
  | .saveImage => none

/-- A control write is for the block (R95). That `baseB` is accepted with split mode disabled too is the spec's own choice
D8, unsafe (notes/assumptions/16). -/
abbrev Qualifies (s : State) (address : Word) : Prop := address = s.cfg.baseA ∨ address = s.cfg.baseB

/-- Page bit `j` after a qualifying write of control bit `k` whose bit rule wrote `written` (a page bit and its value):
in split mode the top page bit is the drive-select bit (R117), and every bit that nothing writes is kept. -/
def pageBitAfter (s : State) (address : Word) (k : Nat) (written : Option (Nat × Bool)) (j : Nat) : Bool :=
  if s.cfg.splitMode ≠ .disabled ∧ j = pageWidth s.cfg.capacityClass - 1 then
    if s.cfg.splitMode = .dualAddress then decide (address = s.cfg.baseB) else decide (k > 7)
  else
    match written with
    | some (i, v) => if j = i then v else s.page.getLsbD j
    | none => s.page.getLsbD j

/-! ### Frames -/

/-- Every byte of every store reads as before. -/
abbrev SameBytes (s t : State) : Prop := ∀ r o, t.storeByte r o = s.storeByte r o

/-- The state outside the stores and the result is as before, `hideSwitch` and the registers `page`, `selected` and
`wideModeActive` left aside. -/
abbrev SameSetting (s t : State) : Prop :=
  t.cfg = s.cfg ∧ t.phase = s.phase ∧ t.windows = s.windows ∧ t.port = s.port ∧ t.session = s.session

/-- The four runtime registers are as before. -/
abbrev SameRegisters (s t : State) : Prop :=
  t.page = s.page ∧ t.selected = s.selected ∧ t.wideModeActive = s.wideModeActive ∧ t.hideSwitch = s.hideSwitch

/-- The control write completes: `selected`, `wideModeActive` and the page bits are as given, and nothing else changes
(R47, R116). -/
def ControlOutcome (i : Instr) (s : State) (address : Word) (k : Nat) (sel wide : Bool)
    (written : Option (Nat × Bool)) : Prop :=
  ∃ t, exec i s = .next t ∧ t.selected = sel ∧ t.wideModeActive = wide ∧
    (∀ j, j < 13 → t.page.getLsbD j = pageBitAfter s address k written j) ∧
    t.hideSwitch = s.hideSwitch ∧ SameSetting s t ∧ SameBytes s t ∧ t.result = .nothing

end Sys2Proof.Machine
end

