-- ==== Sys2Proof/Certificates/Slice0/Obligations.lean ====
section
/-! DEFINITION. The statements for the provers. Each docstring names the rule of the spec it formalises. -/

open Sys2Proof Sys2Proof.Machine

/-! ### Encoding -/

/-- R60 to R66, R70: the decoder reads every well-formed request back from its raw form, with every operand. The raw
form is the model's own choice (notes/assumptions/9). -/
def Obligations.DecodeEncodeRoundTrip : Prop :=
  ∀ i : Instr, wellFormed i = true → decode (encode i) = .ok i

/-- R73: a raw request has one reading and each reading one raw form. The raw form is the model's own
(notes/assumptions/9). -/
def Obligations.EncodeDecodeRoundTrip : Prop :=
  ∀ (r : PortRequest) (i : Instr), decode r = .ok i → encode i = r ∧ wellFormed i = true

/-- Words written out from the formats (R61 to R65) decode to what they stand for, in the serialisation of
notes/assumptions/9: requests of programs P1 to P5. -/
def Obligations.SpecWordsDecode : Prop :=
  decode (.fields .read [0x00, 0x58]) = .ok (.rd 0x5800) ∧
  decode (.fields .write [0x00, 0x50, 0xAB]) = .ok (.wr 0x5000 0xAB) ∧
  decode (.fields .controlBitWrite [0x02, 0x20, 0x11]) = .ok (.ctlPg0 0x1200 true) ∧
  decode (.fields .controlBitWrite [0x0E, 0x40, 0x01]) = .ok (.ctlRsv 0x1400 false) ∧
  decode (.fields .setHideSwitch [0x01]) = .ok (.hide true)

/-- R63, R70: a control write has a bit index, which alone selects the row, an address and a value, and every such tuple
is a request. THE MODEL'S OWN CHOICE (notes/assumptions/9) is where they stand: of the three bytes, read as one number with
the low byte first, the bit index in bits 3..0, the address in bits 19..4, the value in bit 20, and zeros above. -/
def Obligations.ControlTupleIsCut : Prop :=
  ∀ b0 b1 b2 : Byte,
    (b2.toNat < 32 → ∃ (i : Instr) (a : Word) (v : Bool),
      decode (.fields .controlBitWrite [b0, b1, b2]) = .ok i ∧ controlTuple i = some (a, b0.toNat % 16, v) ∧
      a.toNat + (if v then 65536 else 0) = (b0.toNat + 256 * b1.toNat + 65536 * b2.toNat) / 16) ∧
    (32 ≤ b2.toNat → decode (.fields .controlBitWrite [b0, b1, b2]) = .error .paddingNotZero)

/-- R61, R62, R72: every offset and every byte is the operand of a legal bus request. That the low byte of the offset
comes first is the model's own choice (notes/assumptions/9). -/
def Obligations.BusTuplesAreCut : Prop :=
  ∀ lo hi v : Byte, ∃ x : Word, x.toNat = lo.toNat + 256 * hi.toNat ∧
    decode (.fields .read [lo, hi]) = .ok (.rd x) ∧ decode (.fields .write [lo, hi, v]) = .ok (.wr x v)

/-! ### The step -/

/-- R48, R60: a step runs the decoded request: the oldest pending request leaves the port and its instruction is executed.
The port is the model's own choice (notes/assumptions/8). -/
def Obligations.StepRunsDecodedRequest : Prop :=
  ∀ (s : State) (r : PortRequest) (rest : List PortRequest) (i : Instr),
    s.port = r :: rest → decode r = .ok i → step s = exec i (s.setPort rest)

/-- R29: with no request pending the block does nothing (the model's choice, notes/assumptions/8); what is no request is
refused by name (notes/assumptions/9). -/
def Obligations.StepWithoutRequest : Prop :=
  (∀ s : State, s.port = [] → step s = .next s) ∧
  ∀ (s : State) (r : PortRequest) (rest : List PortRequest) (e : DecodeError),
    s.port = r :: rest → decode r = .error e → step s = .refused (.malformedRequest e)

/-- R48: the steps of the machine run the pending requests one after another, in order, each to completion; no
request sees the ones behind it. The list of pending requests and their raw form are the model's choice
(notes/assumptions/8 and 9). -/
def Obligations.PortRunIsRequestRun : Prop :=
  ∀ (l : List Instr) (q : List PortRequest) (s : State),
    (∀ i ∈ l, wellFormed i = true) → s.port = l.map encode ++ q →
      Host.Core.run Sys2Proof.core l.length s = runRequests l (s.setPort q)

/-! ### Reset and phases -/

/-- R33: the registers right after reset, at `State.reset`, whose record and stores are the model's choice
(notes/assumptions/5 and 6). -/
def Obligations.ResetStateValues : Prop :=
  State.reset.page = 0 ∧ State.reset.selected = false ∧ State.reset.wideModeActive = false ∧
  State.reset.hideSwitch = State.reset.cfg.hideSwitch ∧ State.reset.phase = .running

/-- The invariant holds right after reset. -/
def Obligations.ResetStateMeetsInv : Prop := Inv State.reset

/-- R172: the invariant holds at the construction of every session, whatever the free values of the registers are. -/
def Obligations.ConstructionMeetsInv : Prop :=
  ∀ (n : Nat) (c0 : ConfigRecord) (w : WindowParams) (q : List PortRequest),
    ExpansionOffsetsFit w → Inv (construct n c0 w q)

/-- R170, R171: `RESET` in every phase: its two refusals in their order, and otherwise the registers it writes and all
that it keeps. That `ExpansionStore` keeps its bytes is the spec's own choice D11, which errs toward proving
(notes/assumptions/16); no other statement rests on it. -/
def Obligations.ResetRequest : Prop :=
  ∀ (s : State) (c : ConfigRecord),
    if s.phase = .constructed then exec (.reset c) s = .refused .noImage
    else if c.capacityClass ≠ s.cfg.capacityClass ∨ c.expansionInstalled ≠ s.cfg.expansionInstalled then
      exec (.reset c) s = .refused .sessionConfigChanged
    else ∃ t, exec (.reset c) s = .next t ∧ t.cfg = c ∧ t.page = 0 ∧ t.selected = false ∧ t.wideModeActive = false ∧
      t.hideSwitch = c.hideSwitch ∧ t.phase = .running ∧ SameBytes s t ∧ t.windows = s.windows ∧ t.port = s.port ∧
      t.session = s.session ∧ t.result = .nothing

/-- R172: `RD`, `WR`, `CTL` and `HIDE` are refused before the first `RESET`. -/
def Obligations.RefusedBeforeReset : Prop :=
  ∀ (s : State) (i : Instr), s.phase ≠ .running →
    ((∃ x, i = .rd x) ∨ (∃ x v, i = .wr x v) ∨ (controlTuple i).isSome = true ∨ ∃ b, i = .hide b) →
      exec i s = .refused .notReset

/-- R153: `LOAD` and `DEFAULT` are refused after the first `RESET`; `SAVE` never is. -/
def Obligations.PersistenceAfterReset : Prop :=
  ∀ s : State,
    (s.phase = .running → (∀ img, exec (.loadImage img) s = .refused .persistenceAfterReset) ∧
      exec .defaultImage s = .refused .persistenceAfterReset) ∧
    ∀ r, exec .saveImage s ≠ .refused r

/-- R150: every refusal of an instruction is one of the spec's five, with the request and the phase that R150 names. -/
def Obligations.RefusalsAreTheSpecsSet : Prop :=
  ∀ (i : Instr) (s : State) (r : Refusal), exec i s = .refused r →
    (r = .genmodWindowUnknown ∧ ((∃ x, i = .rd x) ∨ ∃ x v, i = .wr x v) ∧ s.phase = .running ∧ s.cfg.genmodFix = true) ∨
    (r = .persistenceAfterReset ∧ ((∃ img, i = .loadImage img) ∨ i = .defaultImage) ∧ s.phase = .running) ∨
    (r = .sessionConfigChanged ∧ s.phase ≠ .constructed ∧ ∃ c, i = .reset c ∧
      (c.capacityClass ≠ s.cfg.capacityClass ∨ c.expansionInstalled ≠ s.cfg.expansionInstalled)) ∨
    (r = .notReset ∧ s.phase ≠ .running ∧
      ((∃ x, i = .rd x) ∨ (∃ x v, i = .wr x v) ∨ (controlTuple i).isSome = true ∨ ∃ b, i = .hide b)) ∨
    (r = .noImage ∧ s.phase = .constructed ∧ ∃ c, i = .reset c)

/-! ### The address decoder -/

/-- R71 (with R80 for the overlay): the address decode map with the default windows and `genmodFix` false, in plain
arithmetic on the offset and the page. The default windows are the spec's own choices D1 to D3 (notes/assumptions/1,
unsafe). -/
def Obligations.DefaultAddressMap : Prop :=
  ∀ (s : State) (x : Word), s.windows = defaultWindows → s.cfg.genmodFix = false →
    busDecode s x = .ok (
      if s.cfg.expansionInstalled = true ∧ x.toNat / 8192 = 1 then some ⟨.expansion, x.toNat % 8192⟩
      else if s.cfg.expansionInstalled = true ∧ 5 ≤ x.toNat / 8192 then
        some ⟨.expansion, 8192 * (x.toNat / 8192 - 4) + x.toNat % 8192⟩
      else if s.hideSwitch = true then none
      else if x.toNat / 8192 = 2 ∧ s.wideModeActive = true then some ⟨.firmware, x.toNat % 8192⟩
      else if x.toNat / 8192 = 2 ∧ s.selected = true then
        if 6144 ≤ x.toNat % 8192 then some ⟨.main, s.page.toNat * 2048 + x.toNat % 2048⟩
        else some ⟨.firmware, x.toNat % 8192⟩
      else if x.toNat / 8192 = 3 ∧ s.wideModeActive = true then
        some ⟨.main, s.page.toNat / 4 * 8192 + x.toNat % 8192⟩
      else none)

/-- R81: the window tests, for every base and every predicate: with `genmodFix` false a window is the 8 KiB that start
at its base; with it true, the predicate that is given, a set of offsets (notes/assumptions/2), and a refusal where none
is; an expansion sub-window is the 8 KiB that start at its base, whatever `genmodFix` is. -/
def Obligations.WindowPredicates : Prop :=
  ∀ (s : State) (x : Word),
    (s.cfg.genmodFix = false →
      inFw s x = .ok (decide (x.toNat / 8192 * 8192 = s.windows.fwBase.toNat)) ∧
      inCart s x = .ok (decide (x.toNat / 8192 * 8192 = s.windows.cartBase.toNat))) ∧
    (s.cfg.genmodFix = true →
      (∀ ws, s.windows.genmodFw = some ws →
        inFw s x = .ok (decide (∃ r ∈ ws, r.lo.toNat ≤ x.toNat ∧ x.toNat ≤ r.hi.toNat))) ∧
      (s.windows.genmodFw = none → inFw s x = .error .genmodWindowUnknown) ∧
      (∀ ws, s.windows.genmodCart = some ws →
        inCart s x = .ok (decide (∃ r ∈ ws, r.lo.toNat ≤ x.toNat ∧ x.toNat ≤ r.hi.toNat))) ∧
      (s.windows.genmodCart = none → inCart s x = .error .genmodWindowUnknown)) ∧
    ∀ w : ExpansionWindow, inExp x w = decide (x.toNat / 8192 * 8192 = w.base.toNat)

/-- R80 step 1, R86: an expansion hit is decided first, by the first sub-window that matches, whatever the flags are;
and where expansion is not installed no offset reaches it. -/
def Obligations.ExpansionBeforeAllElse : Prop :=
  (∀ (s : State) (x : Word), s.cfg.expansionInstalled = true →
    if x &&& 0xE000#16 = s.windows.exp0.base then
      busDecode s x = .ok (some ⟨.expansion, (s.windows.exp0.off ||| (x &&& 0x1FFF#16)).toNat⟩)
    else if x &&& 0xE000#16 = s.windows.exp1.base then
      busDecode s x = .ok (some ⟨.expansion, (s.windows.exp1.off ||| (x &&& 0x1FFF#16)).toNat⟩)
    else if x &&& 0xE000#16 = s.windows.exp2.base then
      busDecode s x = .ok (some ⟨.expansion, (s.windows.exp2.off ||| (x &&& 0x1FFF#16)).toNat⟩)
    else if x &&& 0xE000#16 = s.windows.exp3.base then
      busDecode s x = .ok (some ⟨.expansion, (s.windows.exp3.off ||| (x &&& 0x1FFF#16)).toNat⟩)
    else ∀ o, busDecode s x ≠ .ok (some ⟨.expansion, o⟩)) ∧
  ∀ (s : State) (x : Word) (o : Nat), s.cfg.expansionInstalled = false → busDecode s x ≠ .ok (some ⟨.expansion, o⟩)

/-- R80 steps 2 and 3, R86: hidden, or neither selected nor wide, an offset that hits no expansion sub-window is not
answered: the read returns no value and the write is dropped. -/
def Obligations.SilentModes : Prop :=
  ∀ (s : State) (x : Word) (v : Byte), s.phase = .running → expansionHit s x = none →
    (s.hideSwitch = true ∨ (s.selected = false ∧ s.wideModeActive = false)) →
      exec (.rd x) s = .next (s.respond (.byte none)) ∧ exec (.wr x v) s = .next (s.respond .nothing)

/-- R80 step 4, R84: plain paged mode, in arithmetic: the top 2 KiB of the firmware window reach the page, the rest
`FirmwareStore`, and any other offset nothing. -/
def Obligations.PlainPagedDecode : Prop :=
  ∀ (s : State) (x : Word) (b : Bool), expansionHit s x = none → s.hideSwitch = false → s.selected = true →
    s.wideModeActive = false → inFw s x = .ok b →
      busDecode s x = .ok (
        if b = false then none
        else if 6144 ≤ x.toNat % 8192 then some ⟨.main, s.page.toNat * 2048 + x.toNat % 2048⟩
        else some ⟨.firmware, x.toNat % 8192⟩)

/-- R80 step 5, R84: wide mode, in arithmetic, whatever `selected` is: the whole firmware window reaches
`FirmwareStore`, the cartridge window the 8-KiB block of four pages. -/
def Obligations.WideDecode : Prop :=
  ∀ (s : State) (x : Word), expansionHit s x = none → s.hideSwitch = false → s.wideModeActive = true →
    (inFw s x = .ok true → busDecode s x = .ok (some ⟨.firmware, x.toNat % 8192⟩)) ∧
    (inFw s x = .ok false → inCart s x = .ok true →
      busDecode s x = .ok (some ⟨.main, s.page.toNat / 4 * 8192 + x.toNat % 8192⟩)) ∧
    (inFw s x = .ok false → inCart s x = .ok false → busDecode s x = .ok none)

/-- R152: an `RD` or `WR` is refused for an unknown window exactly when its decode asks the predicate that has no
value; an expansion hit, a hidden and a deselected access never do. -/
def Obligations.GenmodRefusalExact : Prop :=
  ∀ (s : State) (x : Word) (v : Byte), s.phase = .running →
    let asked := s.cfg.genmodFix = true ∧ expansionHit s x = none ∧ s.hideSwitch = false ∧
      (s.selected = true ∨ s.wideModeActive = true) ∧
      (s.windows.genmodFw = none ∨
        (s.wideModeActive = true ∧ s.windows.genmodCart = none ∧ ∃ ws, s.windows.genmodFw = some ws ∧ offsetIn ws x = false))
    (exec (.rd x) s = .refused .genmodWindowUnknown ↔ asked) ∧
      (exec (.wr x v) s = .refused .genmodWindowUnknown ↔ asked)

/-- 95_test_vectors.md, at vectors GM: with the default windows given as the `GENMOD` predicates, `genmodFix` changes no
decode. -/
def Obligations.GenmodAtDefaultsChangesNothing : Prop :=
  ∀ (s t : State) (x : Word), s.cfg.genmodFix = true →
    s.windows = { defaultWindows with genmodFw := some [⟨0x4000#16, 0x5FFF#16⟩], genmodCart := some [⟨0x6000#16, 0x7FFF#16⟩] } →
    t.windows = defaultWindows → t.cfg = { s.cfg with genmodFix := false } →
    t.page = s.page → t.selected = s.selected → t.wideModeActive = s.wideModeActive → t.hideSwitch = s.hideSwitch →
      busDecode s x = busDecode t x

/-- R43: a `GENMOD` parameter can be any predicate on the 65536 offsets: each is an offset set
(notes/assumptions/2). -/
def Obligations.EveryPredicateIsAnOffsetSet : Prop :=
  ∀ f : Word → Bool, ∃ ws : OffsetSet, ∀ x, offsetIn ws x = f x

/-- R85: every store offset that the decoder gives is below the size of its store. -/
def Obligations.DecodedOffsetsInRange : Prop :=
  ∀ (s : State) (x : Word) (ref : StoreRef), s.page.toNat < 2 ^ pageWidth s.cfg.capacityClass →
    ExpansionOffsetsFit s.windows → busDecode s x = .ok (some ref) →
      (ref.region = .main → ref.off < capacity s.cfg.capacityClass) ∧ (ref.region = .firmware → ref.off < 8192) ∧
      (ref.region = .expansion → ref.off < 32768 ∧ s.cfg.expansionInstalled = true)

/-! ### Bus requests -/

/-- R82: `RD` returns the byte that the decoder selects, or no value, and changes no state. -/
def Obligations.ReadReturnsDecodedByte : Prop :=
  ∀ (s : State) (x : Word), s.phase = .running →
    (busDecode s x = .ok none → exec (.rd x) s = .next (s.respond (.byte none))) ∧
    (∀ ref, busDecode s x = .ok (some ref) → ref.off < s.storeSize ref.region →
      exec (.rd x) s = .next (s.respond (.byte (some (s.storeByte ref.region ref.off))))) ∧
    (∀ r, busDecode s x = .error r → exec (.rd x) s = .refused r)

/-- R83: `WR` changes exactly the byte that the decoder selects, or nothing. -/
def Obligations.WriteStoresOneByte : Prop :=
  ∀ (s : State) (x : Word) (v : Byte), s.phase = .running →
    (busDecode s x = .ok none → exec (.wr x v) s = .next (s.respond .nothing)) ∧
    (∀ ref, busDecode s x = .ok (some ref) → ref.off < s.storeSize ref.region →
      ∃ t, exec (.wr x v) s = .next t ∧ t.storeByte ref.region ref.off = v ∧
        (∀ r o, (r ≠ ref.region ∨ o ≠ ref.off) → t.storeByte r o = s.storeByte r o) ∧
        SameRegisters s t ∧ SameSetting s t ∧ t.result = .nothing) ∧
    (∀ r, busDecode s x = .error r → exec (.wr x v) s = .refused r)

/-- R46, R72, R85: from a good state, with every window predicate known, `RD` and `WR` complete at every offset. -/
def Obligations.BusRequestsComplete : Prop :=
  ∀ (s : State) (x : Word) (v : Byte), Inv s → s.phase = .running → WindowsKnown s →
    (∃ t, exec (.rd x) s = .next t ∧ SameBytes s t ∧ SameRegisters s t ∧ SameSetting s t) ∧
    ∃ t, exec (.wr x v) s = .next t ∧ SameRegisters s t ∧ SameSetting s t

/-- R87: a byte written is read back through any offset that reaches it. -/
def Obligations.WriteThenRead : Prop :=
  ∀ (s t : State) (x y : Word) (v : Byte) (ref : StoreRef), exec (.wr x v) s = .next t →
    busDecode s x = .ok (some ref) → busDecode s y = .ok (some ref) →
      exec (.rd y) t = .next (t.respond (.byte (some v)))

/-- R87 in general, with R48: after any run of requests that writes the byte through no alias, an offset that reaches
the byte again reads it back. A byte of `ExpansionStore` is not followed across a `RESET` (U13,
notes/assumptions/16). -/
def Obligations.ReadBackAfterUntouchedRun : Prop :=
  ∀ (s t u : State) (x y : Word) (v : Byte) (ref : StoreRef) (l : List Instr),
    busDecode s x = .ok (some ref) → exec (.wr x v) s = .next t → Untouched ref l t → runRequests l t = .next u →
    (ref.region = .expansion → ∀ c, Instr.reset c ∉ l) → busDecode u y = .ok (some ref) →
      exec (.rd y) u = .next (u.respond (.byte (some v)))

/-- R53: a wide-mode offset and a plain-mode overlay offset name the same byte of `MainStore` exactly when the overlay's
page is `(page & ~0x3) | (w >> 11)` and the intra-page offsets agree. -/
def Obligations.WideAndPlainAliases : Prop :=
  ∀ (s t : State) (x y : Word),
    s.wideModeActive = true → s.hideSwitch = false → expansionHit s x = none → inFw s x = .ok false →
    inCart s x = .ok true → t.wideModeActive = false → t.selected = true → t.hideSwitch = false →
    expansionHit t y = none → inFw t y = .ok true → 6144 ≤ y.toNat % 8192 →
      (busDecode s x = busDecode t y ↔
        t.page.toNat = s.page.toNat / 4 * 4 + x.toNat % 8192 / 2048 ∧ y.toNat % 2048 = x.toNat % 2048)

/-- R25, R86: while the hide switch is on, what a read returns depends on nothing in `MainStore`, `FirmwareStore`,
`page`, `selected` or `wideModeActive`. -/
def Obligations.HiddenReadsLearnNothing : Prop :=
  ∀ (s t : State) (x : Word), s.hideSwitch = true → t.hideSwitch = true → t.phase = s.phase →
    t.cfg.expansionInstalled = s.cfg.expansionInstalled → t.windows = s.windows →
    (∀ o, t.storeByte .expansion o = s.storeByte .expansion o) →
      returned (exec (.rd x) t) = returned (exec (.rd x) s)

/-! ### Control writes -/

/-- R6, R96: the quantities that follow from the capacity class. -/
def Obligations.CapacityQuantities : Prop :=
  (capacity .mib2 = 2 * 1048576 ∧ pageWidth .mib2 = 10 ∧ dsMask .mib2 = 0x0200) ∧
  (capacity .mib4 = 4 * 1048576 ∧ pageWidth .mib4 = 11 ∧ dsMask .mib4 = 0x0400) ∧
  (capacity .mib8 = 8 * 1048576 ∧ pageWidth .mib8 = 12 ∧ dsMask .mib8 = 0x0800) ∧
  (capacity .mib16 = 16 * 1048576 ∧ pageWidth .mib16 = 13 ∧ dsMask .mib16 = 0x1000) ∧
  ∀ c, boundary c = pageWidth c ∧ capacity c = 2048 * 2 ^ pageWidth c ∧ dsMask c = 1#13 <<< (pageWidth c - 1)

/-- R100: control bit 0 writes `selected`, which in wide mode has no effect on the decoder.
At `baseB` with split mode disabled this rests on the spec's own choice D8 (R95; notes/assumptions/16, unsafe). -/
def Obligations.ControlSelect : Prop :=
  ∀ (s : State) (a : Word) (v : Bool), s.phase = .running → Qualifies s a →
    ControlOutcome (.ctlSel a v) s a 0 v s.wideModeActive none ∧
    (s.wideModeActive = true → ∀ x, busDecode (s.setSelected v) x = busDecode s x)

/-- R101, R102: control bits 1 and 2 write page bits 1 and 0, crossed, and no page bit while wide mode is active, when
the decoder does not depend on these two bits.
At `baseB` with split mode disabled this rests on the spec's own choice D8 (R95; notes/assumptions/16, unsafe). -/
def Obligations.ControlCrossedPageBits : Prop :=
  ∀ (s : State) (a : Word) (v : Bool), s.phase = .running → Qualifies s a →
    ControlOutcome (.ctlPg1 a v) s a 1 s.selected s.wideModeActive (if s.wideModeActive then none else some (1, v)) ∧
    ControlOutcome (.ctlPg0 a v) s a 2 s.selected s.wideModeActive (if s.wideModeActive then none else some (0, v)) ∧
    (s.wideModeActive = true → ∀ (p : Page) (x : Word), p >>> 2 = s.page >>> 2 → busDecode (s.setPage p) x = busDecode s x)

/-- R103 to R109: control bits 3 to 9 write page bits 2 to 8 in every mode.
At `baseB` with split mode disabled this rests on the spec's own choice D8 (R95; notes/assumptions/16, unsafe). -/
def Obligations.ControlMiddlePageBits : Prop :=
  ∀ (s : State) (a : Word) (v : Bool), s.phase = .running → Qualifies s a →
    ControlOutcome (.ctlPg2 a v) s a 3 s.selected s.wideModeActive (some (2, v)) ∧
    ControlOutcome (.ctlPg3 a v) s a 4 s.selected s.wideModeActive (some (3, v)) ∧
    ControlOutcome (.ctlPg4 a v) s a 5 s.selected s.wideModeActive (some (4, v)) ∧
    ControlOutcome (.ctlPg5 a v) s a 6 s.selected s.wideModeActive (some (5, v)) ∧
    ControlOutcome (.ctlPg6 a v) s a 7 s.selected s.wideModeActive (some (6, v)) ∧
    ControlOutcome (.ctlPg7 a v) s a 8 s.selected s.wideModeActive (some (7, v)) ∧
    ControlOutcome (.ctlPg8 a v) s a 9 s.selected s.wideModeActive (some (8, v))

/-- R110 to R113: control bits 10 to 13 write page bits 9 to 12 where the bit index is not above `10 + e`, and not
equal to it while split mode is on. That control bit `k` writes page bit `k - 1` is the spec's own choice D7
(notes/assumptions/16).
At `baseB` with split mode disabled this rests on the spec's own choice D8 (R95; notes/assumptions/16, unsafe). -/
def Obligations.ControlHighPageBits : Prop :=
  ∀ (s : State) (a : Word) (v : Bool), s.phase = .running → Qualifies s a →
    let top := 10 + exponent s.cfg.capacityClass
    let writes := fun k => k ≤ top ∧ ¬(k = top ∧ s.cfg.splitMode ≠ .disabled)
    ControlOutcome (.ctlPg9 a v) s a 10 s.selected s.wideModeActive (if writes 10 then some (9, v) else none) ∧
    ControlOutcome (.ctlPg10 a v) s a 11 s.selected s.wideModeActive (if writes 11 then some (10, v) else none) ∧
    ControlOutcome (.ctlPg11 a v) s a 12 s.selected s.wideModeActive (if writes 12 then some (11, v) else none) ∧
    ControlOutcome (.ctlPg12 a v) s a 13 s.selected s.wideModeActive (if writes 13 then some (12, v) else none)

/-- R114: control bit 14 has no effect but the drive-select step.
At `baseB` with split mode disabled this rests on the spec's own choice D8 (R95; notes/assumptions/16, unsafe). -/
def Obligations.ControlReserved : Prop :=
  ∀ (s : State) (a : Word) (v : Bool), s.phase = .running → Qualifies s a →
    ControlOutcome (.ctlRsv a v) s a 14 s.selected s.wideModeActive none

/-- R115: control bit 15 writes `wideModeActive` where wide mode is allowed.
At `baseB` with split mode disabled this rests on the spec's own choice D8 (R95; notes/assumptions/16, unsafe). -/
def Obligations.ControlWide : Prop :=
  ∀ (s : State) (a : Word) (v : Bool), s.phase = .running → Qualifies s a →
    ControlOutcome (.ctlWide a v) s a 15 s.selected (if s.cfg.wideModeAllowed then v else s.wideModeActive) none

/-- R95: a control write whose address is neither base changes nothing. -/
def Obligations.ControlOtherAddressIgnored : Prop :=
  ∀ (s : State) (i : Instr) (a : Word) (k : Nat) (v : Bool), controlTuple i = some (a, k, v) → s.phase = .running →
    a ≠ s.cfg.baseA → a ≠ s.cfg.baseB → exec i s = .next (s.respond .nothing)

/-- R117: in split mode every qualifying control write sets page bit `W - 1`: by its address in dual-address mode, by
its bit index in bit-selected mode; and that bit is the half of the pages that `page` lies in. -/
def Obligations.DriveSelectStep : Prop :=
  ∀ (s : State) (i : Instr) (a : Word) (k : Nat) (v : Bool), controlTuple i = some (a, k, v) → s.phase = .running →
    Qualifies s a → s.cfg.splitMode ≠ .disabled →
      let ds := (s.cfg.splitMode = .dualAddress ∧ a = s.cfg.baseB) ∨ (s.cfg.splitMode = .bitSelected ∧ k > 7)
      ∃ t, exec i s = .next t ∧ (t.page.getLsbD (pageWidth s.cfg.capacityClass - 1) = true ↔ ds) ∧
        (s.page.toNat < 2 ^ pageWidth s.cfg.capacityClass →
          t.page.toNat < 2 ^ pageWidth s.cfg.capacityClass ∧
          (2 ^ (pageWidth s.cfg.capacityClass - 1) ≤ t.page.toNat ↔ ds))

/-- R182: in bit-selected split mode the drive after a sequence of control writes is set by the last qualifying write's
bit index alone. -/
def Obligations.BitSelectedDriveByLastIndex : Prop :=
  ∀ (s : State) (l : List (BitVec 4 × Word × Bool)) (k : BitVec 4) (a : Word) (v : Bool), s.phase = .running →
    s.cfg.splitMode = .bitSelected → Qualifies s a →
      ∃ t, runRequests ((l ++ [(k, a, v)]).map fun w => controlRow w.1 w.2.1 w.2.2) s = .next t ∧
        t.page.getLsbD (pageWidth s.cfg.capacityClass - 1) = decide (k.toNat > 7)

/-- R181: while wide mode is active, no sequence of control writes other than bit 15 changes page bits 1 and 0 or ends
wide mode. -/
def Obligations.FrozenLowPageBits : Prop :=
  ∀ (s : State) (l : List (BitVec 4 × Word × Bool)), s.phase = .running → s.wideModeActive = true →
    (∀ w ∈ l, w.1 ≠ 15#4) →
      ∃ t, runRequests (l.map fun w => controlRow w.1 w.2.1 w.2.2) s = .next t ∧
        t.page.getLsbD 0 = s.page.getLsbD 0 ∧ t.page.getLsbD 1 = s.page.getLsbD 1 ∧ t.wideModeActive = true

/-- R74: with wide mode and split mode off, `SETPAGE` through either base sets the page register. Through `baseB` this
rests on the spec's own choice D8, since split mode is off (R95; notes/assumptions/16, unsafe). -/
def Obligations.SetPageSetsThePage : Prop :=
  ∀ (s : State) (a : Word) (p : Page), s.phase = .running → Qualifies s a → s.wideModeActive = false →
    s.cfg.splitMode = .disabled → s.page.toNat < 2 ^ pageWidth s.cfg.capacityClass →
    p.toNat < 2 ^ pageWidth s.cfg.capacityClass →
      runRequests (setPageScript s.cfg a p) s = .next ((s.setPage p).respond .nothing)

/-- R47: repeating a read, a write of the same value or a control write changes nothing more. -/
def Obligations.RequestsIdempotent : Prop :=
  ∀ (s t : State) (i : Instr), ((∃ x, i = .rd x) ∨ (∃ x v, i = .wr x v) ∨ (controlTuple i).isSome = true) →
    exec i s = .next t → exec i t = .next t

/-! ### Host controls and persistence -/

/-- R130: `HIDE` writes the hide switch and nothing else, at any point between two requests (the spec's own choice D15;
the port and the raw form in the last clause are the model's, notes/assumptions/8 and 9). -/
def Obligations.HideRequest : Prop :=
  ∀ (s : State) (b : Bool), s.phase = .running →
    ∃ t, exec (.hide b) s = .next t ∧ t.hideSwitch = b ∧ t.page = s.page ∧ t.selected = s.selected ∧
      t.wideModeActive = s.wideModeActive ∧ SameSetting s t ∧ SameBytes s t ∧ t.result = .nothing ∧
      step (s.issueFirst (encode (.hide b))) = .next t

/-- R131, R132, R153, D22: `SAVE` returns `capacity + 8192` bytes, `MainStore` then `FirmwareStore`, in every state, and writes no
state. Before the first image the bytes are free values (notes/assumptions/4); the statement holds for every value of them. -/
def Obligations.SaveReturnsTheStores : Prop :=
  ∀ s : State, ∃ img, exec .saveImage s = .next (s.respond (.image img)) ∧
    img.length = capacity s.cfg.capacityClass + 8192 ∧
    (∀ i, i < capacity s.cfg.capacityClass → imageByte img i = s.storeByte .main i) ∧
    ∀ i, i < 8192 → imageByte img (capacity s.cfg.capacityClass + i) = s.storeByte .firmware i

/-- R66, R131: what `SAVE` returns is a byte sequence that a `LOAD` takes. -/
def Obligations.SavedImageLoads : Prop :=
  ∀ (s t : State) (img : Image), StoreWf s .main → StoreWf s .firmware → exec .saveImage s = .next t →
    t.result = .image img → wellFormed (.loadImage img) = true

/-- R133: `LOAD` of an image of `n` bytes, for every `n`: too short for the firmware tail, all zero; else the firmware
is the last 8192 bytes and `MainStore` the rest, cut or zero-padded to the capacity. -/
def Obligations.LoadRestoresTheStores : Prop :=
  ∀ (s : State) (img : Image), s.phase ≠ .running →
    ∃ t, exec (.loadImage img) s = .next t ∧ t.phase = .imageReady ∧
      (if img.length < 8192 then (∀ o, t.storeByte .main o = 0) ∧ ∀ o, t.storeByte .firmware o = 0
       else (∀ i, i < 8192 → t.storeByte .firmware i = imageByte img (img.length - 8192 + i)) ∧
         ∀ i, i < capacity s.cfg.capacityClass →
           t.storeByte .main i = if i < img.length - 8192 then imageByte img i else 0) ∧
      (∀ o, t.storeByte .expansion o = s.storeByte .expansion o) ∧ SameRegisters s t ∧ t.cfg = s.cfg ∧
      t.windows = s.windows ∧ t.port = s.port ∧ t.session = s.session ∧ t.result = .nothing

/-- R134: `DEFAULT` zeroes `MainStore` and `FirmwareStore` and keeps the rest. -/
def Obligations.DefaultZeroesTheStores : Prop :=
  ∀ s : State, s.phase ≠ .running →
    ∃ t, exec .defaultImage s = .next t ∧ t.phase = .imageReady ∧ (∀ o, t.storeByte .main o = 0) ∧
      (∀ o, t.storeByte .firmware o = 0) ∧ (∀ o, t.storeByte .expansion o = s.storeByte .expansion o) ∧
      SameRegisters s t ∧ t.cfg = s.cfg ∧ t.windows = s.windows ∧ t.port = s.port ∧ t.session = s.session ∧
      t.result = .nothing

/-- R136: an image saved and loaded again with the same capacity class restores both stores. -/
def Obligations.SaveLoadRoundTrip : Prop :=
  ∀ (s s' u : State) (img : Image), exec .saveImage s = .next s' → s'.result = .image img → u.phase ≠ .running →
    u.cfg.capacityClass = s.cfg.capacityClass →
      ∃ t, exec (.loadImage img) u = .next t ∧
        (∀ o, o < capacity s.cfg.capacityClass → t.storeByte .main o = s.storeByte .main o) ∧
        ∀ o, o < 8192 → t.storeByte .firmware o = s.storeByte .firmware o

/-- R163 with R172: the next session, constructed with the same capacity class and given the saved image, comes out of its
reset with the battery-backed stores as they were and the runtime registers at their reset values. -/
def Obligations.NextSessionKeepsTheStores : Prop :=
  ∀ (s : State) (n : Nat) (c0 c : ConfigRecord) (w : WindowParams) (q : List PortRequest),
    c0.capacityClass = s.cfg.capacityClass → c.capacityClass = c0.capacityClass →
    c.expansionInstalled = c0.expansionInstalled →
      ∃ t, runRequests [.loadImage (savedImage s), .reset c] (construct n c0 w q) = .next t ∧
        (∀ o, o < capacity s.cfg.capacityClass → t.storeByte .main o = s.storeByte .main o) ∧
        (∀ o, o < 8192 → t.storeByte .firmware o = s.storeByte .firmware o) ∧
        t.page = 0 ∧ t.selected = false ∧ t.wideModeActive = false ∧ t.hideSwitch = c.hideSwitch ∧
        t.phase = .running ∧ t.cfg = c

/-! ### The whole machine -/

/-- R26: every step keeps the invariant: the page register within its width, wide mode only where it is allowed, the
stores in their canonical form and within their sizes. -/
def Obligations.StepKeepsInv : Prop :=
  ∀ s t : State, Inv s → step s = .next t → Inv t

/-- R85, R151: from a good state no step faults: there is no hard error. -/
def Obligations.StepNeverFaults : Prop :=
  ∀ (s : State) (f : Fault), Inv s → step s ≠ .fault f

/-- R21 to R23, R25: each runtime register changes only by its own writers. -/
def Obligations.RegistersHaveOnlyTheirWriters : Prop :=
  ∀ (i : Instr) (s t : State), exec i s = .next t →
    (t.page ≠ s.page → (controlTuple i).isSome = true ∨ ∃ c, i = .reset c) ∧
    (t.selected ≠ s.selected → (∃ a v, i = .ctlSel a v) ∨ ∃ c, i = .reset c) ∧
    (t.wideModeActive ≠ s.wideModeActive → (∃ a v, i = .ctlWide a v) ∨ ∃ c, i = .reset c) ∧
    (t.hideSwitch ≠ s.hideSwitch → (∃ b, i = .hide b) ∨ ∃ c, i = .reset c)

/-- R27, R47, R135: a store's byte changes only by `WR`, `LOAD` and `DEFAULT`, and `ExpansionStore`'s only by `WR`
(or a `RESET`, which this statement leaves open: U13, notes/assumptions/16). -/
def Obligations.StoresHaveOnlyTheirWriters : Prop :=
  ∀ (i : Instr) (s t : State) (r : Region) (o : Nat), exec i s = .next t → t.storeByte r o ≠ s.storeByte r o →
    (∃ x v, i = .wr x v) ∨ (r ≠ .expansion ∧ ((∃ img, i = .loadImage img) ∨ i = .defaultImage)) ∨
      (r = .expansion ∧ ∃ c, i = .reset c)

/-- R24, R171, R172: no request changes the fields that size the stores or the window parameters, the record changes
only by `RESET`, and the session stays running once it is. -/
def Obligations.SessionConstantsKept : Prop :=
  ∀ (i : Instr) (s t : State), exec i s = .next t →
    t.cfg.capacityClass = s.cfg.capacityClass ∧ t.cfg.expansionInstalled = s.cfg.expansionInstalled ∧
    t.windows = s.windows ∧ t.port = s.port ∧ t.session = s.session ∧ (t.cfg ≠ s.cfg → ∃ c, i = .reset c) ∧
    (s.phase = .running → t.phase = .running) ∧ (s.phase ≠ .constructed → t.phase ≠ .constructed) ∧
    (t.phase = .running → s.phase = .running ∨ ∃ c, i = .reset c)

/-- R157: an addressing mode is entered and left only by `CTL` bits 0 and 15, by `HIDE` and by `RESET`; and the mode
alone says which stores the decoder can reach. -/
def Obligations.AddressingModeRules : Prop :=
  (∀ (i : Instr) (s t : State), exec i s = .next t → addressingMode t ≠ addressingMode s →
    (∃ a v, i = .ctlSel a v) ∨ (∃ a v, i = .ctlWide a v) ∨ (∃ b, i = .hide b) ∨ ∃ c, i = .reset c) ∧
  ∀ (s : State) (x : Word) (ref : StoreRef), busDecode s x = .ok (some ref) → ref.region ≠ .expansion →
    (addressingMode s = .plainPaged ∧ inFw s x = .ok true ∧ (ref.region = .main ↔ 6144 ≤ x.toNat % 8192)) ∨
    (addressingMode s = .wide ∧ (inFw s x = .ok true ∧ ref.region = .firmware ∨
      inFw s x = .ok false ∧ inCart s x = .ok true ∧ ref.region = .main))
end

