-- ==== Sys2Proof/Laws/Memory.lean ====
section
/-! SUPPORT. The laws of the memory operations: what a read gives after a write, and that the canonical form is kept. -/

namespace Sys2Proof.Machine

/-! ### What a read gives -/

@[simp] theorem Memory.find_nil (k : Nat) : Memory.find [] k = none := rfl

theorem Memory.find_cons (a : Nat) (b : Byte) (m : Memory) (k : Nat) :
    Memory.find ((a, b) :: m) k = if a = k then some b else Memory.find m k := rfl

theorem Memory.find_insert (m : Memory) (k : Nat) (v : Byte) (j : Nat) :
    Memory.find (Memory.insert m k v) j = if j = k then some v else Memory.find m j := by
  induction m with
  | nil => simp [Memory.insert, Memory.find_cons, eq_comm]
  | cons c rest ih =>
    obtain ⟨a, b⟩ := c
    simp only [Memory.insert]
    split_ifs with h1 h2 <;> simp only [Memory.find_cons, ih] <;> split_ifs <;> first | rfl | omega

theorem Memory.find_erase (m : Memory) (k j : Nat) :
    Memory.find (Memory.erase m k) j = if j = k then none else Memory.find m j := by
  induction m with
  | nil => simp [Memory.erase]
  | cons c rest ih =>
    obtain ⟨a, b⟩ := c
    simp only [Memory.erase] at ih
    by_cases hjk : j = k
    · subst hjk
      by_cases hak : a = j <;> simp_all [Memory.erase, Memory.find_cons]
    · by_cases hak : a = k
      · simp [Memory.erase, hak, ih, hjk, Memory.find_cons, Ne.symm hjk]
      · simp [Memory.erase, hak, ih, hjk, Memory.find_cons]

/-- A read after a write, where an unlisted offset reads as `u`. -/
theorem Memory.find_write (u : Option Byte) (m : Memory) (k : Nat) (v : Byte) (j : Nat) :
    (Memory.find (Memory.write u m k v) j).or u = if j = k then some v else (Memory.find m j).or u := by
  unfold Memory.write
  split_ifs with h1 h2 h2 <;> simp_all [Memory.find_erase, Memory.find_insert]

theorem Memory.find_slice (m : Memory) (lo len i : Nat) :
    Memory.find (Memory.slice m lo len) i = if i < len then Memory.find m (lo + i) else none := by
  induction m with
  | nil => simp [Memory.slice]
  | cons c rest ih =>
    obtain ⟨a, b⟩ := c
    simp only [Memory.slice] at ih
    simp only [Memory.slice, List.filterMap_cons, Memory.find_cons]
    by_cases h : lo ≤ a ∧ a < lo + len
    · simp only [h, and_self, if_true, Memory.find_cons, ih]
      split_ifs <;> first | rfl | omega
    · simp only [h, if_false, ih]
      split_ifs <;> first | rfl | omega

theorem Memory.find_shift (m : Memory) (d i : Nat) :
    Memory.find (Memory.shift m d) i = if d ≤ i then Memory.find m (i - d) else none := by
  induction m with
  | nil => simp [Memory.shift]
  | cons c rest ih =>
    obtain ⟨a, b⟩ := c
    simp only [Memory.shift] at ih
    simp only [Memory.shift, List.map_cons, Memory.find_cons, ih]
    split_ifs <;> first | rfl | omega

theorem Memory.find_append (m n : Memory) (i : Nat) :
    Memory.find (m ++ n) i = (Memory.find m i).or (Memory.find n i) := by
  induction m with
  | nil => simp
  | cons c rest ih =>
    obtain ⟨a, b⟩ := c
    simp only [List.cons_append, Memory.find_cons, ih]
    split_ifs <;> simp

/-- A write that repeats the write before it changes nothing. -/
theorem Memory.write_write_self (u : Option Byte) (m : Memory) (k : Nat) (v : Byte) :
    Memory.write u (Memory.write u m k v) k v = Memory.write u m k v := by
  unfold Memory.write
  split_ifs
  · simp [Memory.erase]
  · induction m with
    | nil => simp [Memory.insert]
    | cons c rest ih =>
      obtain ⟨a, b⟩ := c
      simp only [Memory.insert]
      split_ifs with h1 h2
      · simp [Memory.insert]
      · simp [Memory.insert]
      · simp [Memory.insert, h1, h2, ih]

/-! ### The canonical form -/

theorem rising_iff_pairwise (m : List Host.Cell) : rising m = true ↔ m.Pairwise fun c d => c.1 < d.1 := by
  induction m with
  | nil => simp [rising]
  | cons c rest ih =>
    cases rest with
    | nil => simp [rising]
    | cons d rest =>
      rw [rising]
      simp only [Bool.and_eq_true, decide_eq_true_eq, ih]
      constructor
      · rintro ⟨h1, h2⟩
        refine List.pairwise_cons.2 ⟨fun x hx => ?_, h2⟩
        rcases List.mem_cons.1 hx with rfl | hx
        · exact h1
        · exact lt_trans h1 ((List.pairwise_cons.1 h2).1 x hx)
      · intro h
        have h' := List.pairwise_cons.1 h
        exact ⟨h'.1 d (by simp), h'.2⟩

/-- The canonical form, as propositions. -/
theorem Memory.wf_iff (u : Option Byte) (size : Nat) (m : Memory) :
    Memory.wf u size m = true ↔
      (m.Pairwise fun c d => c.1 < d.1) ∧ ∀ c ∈ m, c.1 < size ∧ u ≠ some c.2 := by
  simp [Memory.wf, rising_iff_pairwise]

theorem Memory.mem_insert {m : Memory} {k : Nat} {v : Byte} {c : Host.Cell} (h : c ∈ Memory.insert m k v) :
    c = (k, v) ∨ c ∈ m := by
  induction m with
  | nil => simpa [Memory.insert] using h
  | cons d rest ih =>
    obtain ⟨a, b⟩ := d
    simp only [Memory.insert] at h
    split_ifs at h <;> simp only [List.mem_cons] at h ⊢ <;> tauto

theorem Memory.insert_pairwise {m : Memory} (h : m.Pairwise fun c d => c.1 < d.1) (k : Nat) (v : Byte) :
    (Memory.insert m k v).Pairwise fun c d => c.1 < d.1 := by
  induction m with
  | nil => simp [Memory.insert]
  | cons d rest ih =>
    obtain ⟨a, b⟩ := d
    obtain ⟨h1, h2⟩ := List.pairwise_cons.1 h
    simp only [Memory.insert]
    split_ifs with hka hk
    · refine List.pairwise_cons.2 ⟨fun x hx => ?_, h⟩
      rcases List.mem_cons.1 hx with rfl | hx
      · exact hka
      · exact lt_trans hka (h1 x hx)
    · subst hk
      exact List.pairwise_cons.2 ⟨h1, h2⟩
    · refine List.pairwise_cons.2 ⟨fun x hx => ?_, ih h2⟩
      rcases Memory.mem_insert hx with rfl | hx
      · show a < k
        omega
      · exact h1 x hx

/-- A write inside the store keeps the canonical form. -/
theorem Memory.write_wf {u : Option Byte} {size : Nat} {m : Memory} (h : Memory.wf u size m = true) {k : Nat}
    (hk : k < size) (v : Byte) : Memory.wf u size (Memory.write u m k v) = true := by
  rw [Memory.wf_iff] at h ⊢
  unfold Memory.write
  split_ifs with hu
  · exact ⟨h.1.filter _, fun c hc => h.2 c (List.mem_of_mem_filter hc)⟩
  · refine ⟨Memory.insert_pairwise h.1 k v, fun c hc => ?_⟩
    rcases Memory.mem_insert hc with rfl | hc
    · exact ⟨hk, hu⟩
    · exact h.2 c hc

theorem Memory.wf_nil (u : Option Byte) (size : Nat) : Memory.wf u size [] = true := rfl

theorem Memory.mem_slice {m : Memory} {lo len : Nat} {c : Host.Cell} (h : c ∈ Memory.slice m lo len) :
    c.1 < len ∧ (lo + c.1, c.2) ∈ m := by
  simp only [Memory.slice, List.mem_filterMap] at h
  obtain ⟨d, hd, hc⟩ := h
  split_ifs at hc with hr
  obtain rfl : (d.1 - lo, d.2) = c := by simpa using hc
  refine ⟨by show d.1 - lo < len; omega, ?_⟩
  have : lo + (d.1 - lo) = d.1 := by omega
  simpa [this] using hd

theorem Memory.slice_pairwise {m : Memory} (h : m.Pairwise fun c d => c.1 < d.1) (lo len : Nat) :
    (Memory.slice m lo len).Pairwise fun c d => c.1 < d.1 := by
  unfold Memory.slice
  rw [List.pairwise_filterMap]
  refine h.imp ?_
  intro c d hcd x hx y hy
  split_ifs at hx hy with h1 h2
  obtain rfl : (c.1 - lo, c.2) = x := by simpa using hx
  obtain rfl : (d.1 - lo, d.2) = y := by simpa using hy
  show c.1 - lo < d.1 - lo
  omega

/-- A slice of an image's cells is a memory in canonical form. -/
theorem Memory.slice_wf {m : Memory} {size : Nat} (h : Memory.wf (some 0#8) size m = true) (lo len : Nat) :
    Memory.wf (some 0#8) len (Memory.slice m lo len) = true := by
  rw [Memory.wf_iff] at h ⊢
  refine ⟨Memory.slice_pairwise h.1 lo len, fun c hc => ?_⟩
  obtain ⟨h1, h2⟩ := Memory.mem_slice hc
  exact ⟨h1, (h.2 _ h2).2⟩

/-- The canonical form of an image is that of a memory whose unlisted byte is 0x00. -/
theorem Image.wf_iff (img : Image) : img.wf = true ↔ Memory.wf (some 0#8) img.length img.cells = true := by
  rw [Memory.wf_iff]
  simp only [Image.wf, Image.listsNoZero, Image.inRange, Bool.and_eq_true, rising_iff_pairwise, List.all_eq_true,
    decide_eq_true_eq, bne_iff_ne, ne_eq, Option.some.injEq]
  constructor
  · rintro ⟨⟨h1, h2⟩, h3⟩
    exact ⟨h1, fun c hc => ⟨h3 c hc, fun h => h2 c hc h.symm⟩⟩
  · rintro ⟨h1, h2⟩
    exact ⟨⟨h1, fun c hc h => (h2 c hc).2 h.symm⟩, fun c hc => (h2 c hc).1⟩

/-! ### Images of byte sequences -/

theorem find_cellsOfBytes (l : List Byte) (k i : Nat) :
    (Memory.find (cellsOfBytes k l) (k + i)).getD 0#8 = l.getD i 0#8 := by
  induction l generalizing k i with
  | nil => simp [cellsOfBytes]
  | cons b rest ih =>
    have below : ∀ (l : List Byte) (n j : Nat), j < n → Memory.find (cellsOfBytes n l) j = none := by
      intro l
      induction l with
      | nil => intros; rfl
      | cons b rest ih =>
        intro n j h
        simp only [cellsOfBytes]
        split_ifs
        · exact ih (n + 1) j (by omega)
        · rw [Memory.find_cons, if_neg (by omega)]
          exact ih (n + 1) j (by omega)
    cases i with
    | zero =>
      simp only [cellsOfBytes]
      split_ifs with h
      · have hn := below rest (k + 1) k (by omega)
        simp [h, hn]
      · simp [Memory.find_cons]
    | succ i =>
      have e : k + (i + 1) = k + 1 + i := by omega
      simp only [cellsOfBytes]
      split_ifs with h
      · rw [e, ih]
        simp
      · rw [Memory.find_cons, if_neg (by omega), e, ih]
        simp

/-- The image of a byte sequence has its bytes. -/
theorem imageByte_imageOfBytes (l : List Byte) (i : Nat) : imageByte (imageOfBytes l) i = l.getD i 0#8 := by
  simpa [imageByte, imageOfBytes] using find_cellsOfBytes l 0 i

theorem mem_cellsOfBytes {l : List Byte} {k : Nat} {c : Host.Cell} (h : c ∈ cellsOfBytes k l) :
    k ≤ c.1 ∧ c.1 < k + l.length ∧ c.2 ≠ 0#8 := by
  induction l generalizing k with
  | nil => simp [cellsOfBytes] at h
  | cons b rest ih =>
    simp only [cellsOfBytes] at h
    simp only [List.length_cons]
    split_ifs at h with hb
    · have := ih h
      exact ⟨by omega, by omega, this.2.2⟩
    · rcases List.mem_cons.1 h with rfl | h
      · exact ⟨le_refl _, by show k < _; omega, hb⟩
      · have := ih h
        exact ⟨by omega, by omega, this.2.2⟩

theorem cellsOfBytes_pairwise (l : List Byte) (k : Nat) : (cellsOfBytes k l).Pairwise fun c d => c.1 < d.1 := by
  induction l generalizing k with
  | nil => simp [cellsOfBytes]
  | cons b rest ih =>
    simp only [cellsOfBytes]
    split_ifs
    · exact ih _
    · refine List.pairwise_cons.2 ⟨fun d hd => ?_, ih _⟩
      have := (mem_cellsOfBytes hd).1
      show k < d.1
      omega

/-- The image of a byte sequence is in canonical form. -/
theorem imageOfBytes_wf (l : List Byte) : (imageOfBytes l).wf = true := by
  rw [Image.wf_iff, Memory.wf_iff]
  refine ⟨cellsOfBytes_pairwise l 0, fun c hc => ?_⟩
  have := mem_cellsOfBytes hc
  exact ⟨by simpa [imageOfBytes] using this.2.1, fun h => this.2.2 (by simpa using h.symm)⟩

end Sys2Proof.Machine
end

