-- ==== Sys2Proof/Laws/State.lean ====
section
/-! SUPPORT. One lemma for each field of the state under each update. -/

namespace Sys2Proof.Machine

@[simp] theorem State.setPage_page (s : State) (p : Page) : (s.setPage p).page = p := rfl
@[simp] theorem State.setPage_selected (s : State) (p : Page) : (s.setPage p).selected = s.selected := rfl
@[simp] theorem State.setPage_wideModeActive (s : State) (p : Page) : (s.setPage p).wideModeActive = s.wideModeActive := rfl
@[simp] theorem State.setPage_hideSwitch (s : State) (p : Page) : (s.setPage p).hideSwitch = s.hideSwitch := rfl
@[simp] theorem State.setPage_cfg (s : State) (p : Page) : (s.setPage p).cfg = s.cfg := rfl
@[simp] theorem State.setPage_mainStore (s : State) (p : Page) : (s.setPage p).mainStore = s.mainStore := rfl
@[simp] theorem State.setPage_firmwareStore (s : State) (p : Page) : (s.setPage p).firmwareStore = s.firmwareStore := rfl
@[simp] theorem State.setPage_expansionStore (s : State) (p : Page) : (s.setPage p).expansionStore = s.expansionStore := rfl
@[simp] theorem State.setPage_phase (s : State) (p : Page) : (s.setPage p).phase = s.phase := rfl
@[simp] theorem State.setPage_windows (s : State) (p : Page) : (s.setPage p).windows = s.windows := rfl
@[simp] theorem State.setPage_port (s : State) (p : Page) : (s.setPage p).port = s.port := rfl
@[simp] theorem State.setPage_result (s : State) (p : Page) : (s.setPage p).result = s.result := rfl
@[simp] theorem State.setPage_session (s : State) (p : Page) : (s.setPage p).session = s.session := rfl
@[simp] theorem State.setPage_store (s : State) (p : Page) (r' : Region) : (s.setPage p).store r' = s.store r' := by cases r' <;> rfl

@[simp] theorem State.setSelected_page (s : State) (b : Bool) : (s.setSelected b).page = s.page := rfl
@[simp] theorem State.setSelected_selected (s : State) (b : Bool) : (s.setSelected b).selected = b := rfl
@[simp] theorem State.setSelected_wideModeActive (s : State) (b : Bool) : (s.setSelected b).wideModeActive = s.wideModeActive := rfl
@[simp] theorem State.setSelected_hideSwitch (s : State) (b : Bool) : (s.setSelected b).hideSwitch = s.hideSwitch := rfl
@[simp] theorem State.setSelected_cfg (s : State) (b : Bool) : (s.setSelected b).cfg = s.cfg := rfl
@[simp] theorem State.setSelected_mainStore (s : State) (b : Bool) : (s.setSelected b).mainStore = s.mainStore := rfl
@[simp] theorem State.setSelected_firmwareStore (s : State) (b : Bool) : (s.setSelected b).firmwareStore = s.firmwareStore := rfl
@[simp] theorem State.setSelected_expansionStore (s : State) (b : Bool) : (s.setSelected b).expansionStore = s.expansionStore := rfl
@[simp] theorem State.setSelected_phase (s : State) (b : Bool) : (s.setSelected b).phase = s.phase := rfl
@[simp] theorem State.setSelected_windows (s : State) (b : Bool) : (s.setSelected b).windows = s.windows := rfl
@[simp] theorem State.setSelected_port (s : State) (b : Bool) : (s.setSelected b).port = s.port := rfl
@[simp] theorem State.setSelected_result (s : State) (b : Bool) : (s.setSelected b).result = s.result := rfl
@[simp] theorem State.setSelected_session (s : State) (b : Bool) : (s.setSelected b).session = s.session := rfl
@[simp] theorem State.setSelected_store (s : State) (b : Bool) (r' : Region) : (s.setSelected b).store r' = s.store r' := by cases r' <;> rfl

@[simp] theorem State.setWide_page (s : State) (b : Bool) : (s.setWide b).page = s.page := rfl
@[simp] theorem State.setWide_selected (s : State) (b : Bool) : (s.setWide b).selected = s.selected := rfl
@[simp] theorem State.setWide_wideModeActive (s : State) (b : Bool) : (s.setWide b).wideModeActive = b := rfl
@[simp] theorem State.setWide_hideSwitch (s : State) (b : Bool) : (s.setWide b).hideSwitch = s.hideSwitch := rfl
@[simp] theorem State.setWide_cfg (s : State) (b : Bool) : (s.setWide b).cfg = s.cfg := rfl
@[simp] theorem State.setWide_mainStore (s : State) (b : Bool) : (s.setWide b).mainStore = s.mainStore := rfl
@[simp] theorem State.setWide_firmwareStore (s : State) (b : Bool) : (s.setWide b).firmwareStore = s.firmwareStore := rfl
@[simp] theorem State.setWide_expansionStore (s : State) (b : Bool) : (s.setWide b).expansionStore = s.expansionStore := rfl
@[simp] theorem State.setWide_phase (s : State) (b : Bool) : (s.setWide b).phase = s.phase := rfl
@[simp] theorem State.setWide_windows (s : State) (b : Bool) : (s.setWide b).windows = s.windows := rfl
@[simp] theorem State.setWide_port (s : State) (b : Bool) : (s.setWide b).port = s.port := rfl
@[simp] theorem State.setWide_result (s : State) (b : Bool) : (s.setWide b).result = s.result := rfl
@[simp] theorem State.setWide_session (s : State) (b : Bool) : (s.setWide b).session = s.session := rfl
@[simp] theorem State.setWide_store (s : State) (b : Bool) (r' : Region) : (s.setWide b).store r' = s.store r' := by cases r' <;> rfl

@[simp] theorem State.setHide_page (s : State) (b : Bool) : (s.setHide b).page = s.page := rfl
@[simp] theorem State.setHide_selected (s : State) (b : Bool) : (s.setHide b).selected = s.selected := rfl
@[simp] theorem State.setHide_wideModeActive (s : State) (b : Bool) : (s.setHide b).wideModeActive = s.wideModeActive := rfl
@[simp] theorem State.setHide_hideSwitch (s : State) (b : Bool) : (s.setHide b).hideSwitch = b := rfl
@[simp] theorem State.setHide_cfg (s : State) (b : Bool) : (s.setHide b).cfg = s.cfg := rfl
@[simp] theorem State.setHide_mainStore (s : State) (b : Bool) : (s.setHide b).mainStore = s.mainStore := rfl
@[simp] theorem State.setHide_firmwareStore (s : State) (b : Bool) : (s.setHide b).firmwareStore = s.firmwareStore := rfl
@[simp] theorem State.setHide_expansionStore (s : State) (b : Bool) : (s.setHide b).expansionStore = s.expansionStore := rfl
@[simp] theorem State.setHide_phase (s : State) (b : Bool) : (s.setHide b).phase = s.phase := rfl
@[simp] theorem State.setHide_windows (s : State) (b : Bool) : (s.setHide b).windows = s.windows := rfl
@[simp] theorem State.setHide_port (s : State) (b : Bool) : (s.setHide b).port = s.port := rfl
@[simp] theorem State.setHide_result (s : State) (b : Bool) : (s.setHide b).result = s.result := rfl
@[simp] theorem State.setHide_session (s : State) (b : Bool) : (s.setHide b).session = s.session := rfl
@[simp] theorem State.setHide_store (s : State) (b : Bool) (r' : Region) : (s.setHide b).store r' = s.store r' := by cases r' <;> rfl

@[simp] theorem State.setCfg_page (s : State) (c : ConfigRecord) : (s.setCfg c).page = s.page := rfl
@[simp] theorem State.setCfg_selected (s : State) (c : ConfigRecord) : (s.setCfg c).selected = s.selected := rfl
@[simp] theorem State.setCfg_wideModeActive (s : State) (c : ConfigRecord) : (s.setCfg c).wideModeActive = s.wideModeActive := rfl
@[simp] theorem State.setCfg_hideSwitch (s : State) (c : ConfigRecord) : (s.setCfg c).hideSwitch = s.hideSwitch := rfl
@[simp] theorem State.setCfg_cfg (s : State) (c : ConfigRecord) : (s.setCfg c).cfg = c := rfl
@[simp] theorem State.setCfg_mainStore (s : State) (c : ConfigRecord) : (s.setCfg c).mainStore = s.mainStore := rfl
@[simp] theorem State.setCfg_firmwareStore (s : State) (c : ConfigRecord) : (s.setCfg c).firmwareStore = s.firmwareStore := rfl
@[simp] theorem State.setCfg_expansionStore (s : State) (c : ConfigRecord) : (s.setCfg c).expansionStore = s.expansionStore := rfl
@[simp] theorem State.setCfg_phase (s : State) (c : ConfigRecord) : (s.setCfg c).phase = s.phase := rfl
@[simp] theorem State.setCfg_windows (s : State) (c : ConfigRecord) : (s.setCfg c).windows = s.windows := rfl
@[simp] theorem State.setCfg_port (s : State) (c : ConfigRecord) : (s.setCfg c).port = s.port := rfl
@[simp] theorem State.setCfg_result (s : State) (c : ConfigRecord) : (s.setCfg c).result = s.result := rfl
@[simp] theorem State.setCfg_session (s : State) (c : ConfigRecord) : (s.setCfg c).session = s.session := rfl
@[simp] theorem State.setCfg_store (s : State) (c : ConfigRecord) (r' : Region) : (s.setCfg c).store r' = s.store r' := by cases r' <;> rfl

@[simp] theorem State.setPhase_page (s : State) (p : Phase) : (s.setPhase p).page = s.page := rfl
@[simp] theorem State.setPhase_selected (s : State) (p : Phase) : (s.setPhase p).selected = s.selected := rfl
@[simp] theorem State.setPhase_wideModeActive (s : State) (p : Phase) : (s.setPhase p).wideModeActive = s.wideModeActive := rfl
@[simp] theorem State.setPhase_hideSwitch (s : State) (p : Phase) : (s.setPhase p).hideSwitch = s.hideSwitch := rfl
@[simp] theorem State.setPhase_cfg (s : State) (p : Phase) : (s.setPhase p).cfg = s.cfg := rfl
@[simp] theorem State.setPhase_mainStore (s : State) (p : Phase) : (s.setPhase p).mainStore = s.mainStore := rfl
@[simp] theorem State.setPhase_firmwareStore (s : State) (p : Phase) : (s.setPhase p).firmwareStore = s.firmwareStore := rfl
@[simp] theorem State.setPhase_expansionStore (s : State) (p : Phase) : (s.setPhase p).expansionStore = s.expansionStore := rfl
@[simp] theorem State.setPhase_phase (s : State) (p : Phase) : (s.setPhase p).phase = p := rfl
@[simp] theorem State.setPhase_windows (s : State) (p : Phase) : (s.setPhase p).windows = s.windows := rfl
@[simp] theorem State.setPhase_port (s : State) (p : Phase) : (s.setPhase p).port = s.port := rfl
@[simp] theorem State.setPhase_result (s : State) (p : Phase) : (s.setPhase p).result = s.result := rfl
@[simp] theorem State.setPhase_session (s : State) (p : Phase) : (s.setPhase p).session = s.session := rfl
@[simp] theorem State.setPhase_store (s : State) (p : Phase) (r' : Region) : (s.setPhase p).store r' = s.store r' := by cases r' <;> rfl

@[simp] theorem State.setPort_page (s : State) (q : List PortRequest) : (s.setPort q).page = s.page := rfl
@[simp] theorem State.setPort_selected (s : State) (q : List PortRequest) : (s.setPort q).selected = s.selected := rfl
@[simp] theorem State.setPort_wideModeActive (s : State) (q : List PortRequest) : (s.setPort q).wideModeActive = s.wideModeActive := rfl
@[simp] theorem State.setPort_hideSwitch (s : State) (q : List PortRequest) : (s.setPort q).hideSwitch = s.hideSwitch := rfl
@[simp] theorem State.setPort_cfg (s : State) (q : List PortRequest) : (s.setPort q).cfg = s.cfg := rfl
@[simp] theorem State.setPort_mainStore (s : State) (q : List PortRequest) : (s.setPort q).mainStore = s.mainStore := rfl
@[simp] theorem State.setPort_firmwareStore (s : State) (q : List PortRequest) : (s.setPort q).firmwareStore = s.firmwareStore := rfl
@[simp] theorem State.setPort_expansionStore (s : State) (q : List PortRequest) : (s.setPort q).expansionStore = s.expansionStore := rfl
@[simp] theorem State.setPort_phase (s : State) (q : List PortRequest) : (s.setPort q).phase = s.phase := rfl
@[simp] theorem State.setPort_windows (s : State) (q : List PortRequest) : (s.setPort q).windows = s.windows := rfl
@[simp] theorem State.setPort_port (s : State) (q : List PortRequest) : (s.setPort q).port = q := rfl
@[simp] theorem State.setPort_result (s : State) (q : List PortRequest) : (s.setPort q).result = s.result := rfl
@[simp] theorem State.setPort_session (s : State) (q : List PortRequest) : (s.setPort q).session = s.session := rfl
@[simp] theorem State.setPort_store (s : State) (q : List PortRequest) (r' : Region) : (s.setPort q).store r' = s.store r' := by cases r' <;> rfl

@[simp] theorem State.respond_page (s : State) (r : Result) : (s.respond r).page = s.page := rfl
@[simp] theorem State.respond_selected (s : State) (r : Result) : (s.respond r).selected = s.selected := rfl
@[simp] theorem State.respond_wideModeActive (s : State) (r : Result) : (s.respond r).wideModeActive = s.wideModeActive := rfl
@[simp] theorem State.respond_hideSwitch (s : State) (r : Result) : (s.respond r).hideSwitch = s.hideSwitch := rfl
@[simp] theorem State.respond_cfg (s : State) (r : Result) : (s.respond r).cfg = s.cfg := rfl
@[simp] theorem State.respond_mainStore (s : State) (r : Result) : (s.respond r).mainStore = s.mainStore := rfl
@[simp] theorem State.respond_firmwareStore (s : State) (r : Result) : (s.respond r).firmwareStore = s.firmwareStore := rfl
@[simp] theorem State.respond_expansionStore (s : State) (r : Result) : (s.respond r).expansionStore = s.expansionStore := rfl
@[simp] theorem State.respond_phase (s : State) (r : Result) : (s.respond r).phase = s.phase := rfl
@[simp] theorem State.respond_windows (s : State) (r : Result) : (s.respond r).windows = s.windows := rfl
@[simp] theorem State.respond_port (s : State) (r : Result) : (s.respond r).port = s.port := rfl
@[simp] theorem State.respond_result (s : State) (r : Result) : (s.respond r).result = r := rfl
@[simp] theorem State.respond_session (s : State) (r : Result) : (s.respond r).session = s.session := rfl
@[simp] theorem State.respond_store (s : State) (r : Result) (r' : Region) : (s.respond r).store r' = s.store r' := by cases r' <;> rfl

@[simp] theorem State.setStore_page (s : State) (r : Region) (m : Memory) : (s.setStore r m).page = s.page := by cases r <;> rfl
@[simp] theorem State.setStore_selected (s : State) (r : Region) (m : Memory) : (s.setStore r m).selected = s.selected := by cases r <;> rfl
@[simp] theorem State.setStore_wideModeActive (s : State) (r : Region) (m : Memory) : (s.setStore r m).wideModeActive = s.wideModeActive := by cases r <;> rfl
@[simp] theorem State.setStore_hideSwitch (s : State) (r : Region) (m : Memory) : (s.setStore r m).hideSwitch = s.hideSwitch := by cases r <;> rfl
@[simp] theorem State.setStore_cfg (s : State) (r : Region) (m : Memory) : (s.setStore r m).cfg = s.cfg := by cases r <;> rfl
@[simp] theorem State.setStore_phase (s : State) (r : Region) (m : Memory) : (s.setStore r m).phase = s.phase := by cases r <;> rfl
@[simp] theorem State.setStore_windows (s : State) (r : Region) (m : Memory) : (s.setStore r m).windows = s.windows := by cases r <;> rfl
@[simp] theorem State.setStore_port (s : State) (r : Region) (m : Memory) : (s.setStore r m).port = s.port := by cases r <;> rfl
@[simp] theorem State.setStore_result (s : State) (r : Region) (m : Memory) : (s.setStore r m).result = s.result := by cases r <;> rfl
@[simp] theorem State.setStore_session (s : State) (r : Region) (m : Memory) : (s.setStore r m).session = s.session := by cases r <;> rfl
@[simp] theorem State.setStore_store (s : State) (r r' : Region) (m : Memory) :
    (s.setStore r m).store r' = if r' = r then m else s.store r' := by
  cases r <;> cases r' <;> rfl

@[simp] theorem State.store_main (s : State) : s.store .main = s.mainStore := rfl
@[simp] theorem State.store_firmware (s : State) : s.store .firmware = s.firmwareStore := rfl
@[simp] theorem State.store_expansion (s : State) : s.store .expansion = s.expansionStore := rfl

/-- Two states with the same fields are one. -/
theorem State.ext_fields {s t : State} (h1 : s.page = t.page) (h2 : s.selected = t.selected)
    (h3 : s.wideModeActive = t.wideModeActive) (h4 : s.hideSwitch = t.hideSwitch) (h5 : s.cfg = t.cfg)
    (h6 : ∀ r, s.store r = t.store r) (h7 : s.phase = t.phase) (h8 : s.windows = t.windows)
    (h9 : s.port = t.port) (h10 : s.result = t.result) (h11 : s.session = t.session) : s = t := by
  have hm := h6 .main
  have hf := h6 .firmware
  have he := h6 .expansion
  cases s
  cases t
  simp_all

end Sys2Proof.Machine
end

