-- ==== Sys2Proof/Laws/Ops.lean ====
section
/-! SUPPORT. For each shared operation, once, everything it can do. -/

namespace Sys2Proof.Machine

/-! ### Page bits -/

/-- `set_bit` replaces one bit and keeps the others (R10). -/
theorem setBit_getLsbD (x : Page) {i : Nat} (hi : i < 13) (b : Bool) (j : Nat) :
    (setBit x i b).getLsbD j = if j = i then b else x.getLsbD j := by
  by_cases hj : j < 13
  · have hone : (1#13 <<< i).getLsbD j = decide (j = i) := by
      rw [BitVec.getLsbD_shiftLeft, BitVec.getLsbD_one]
      by_cases h : j = i
      · subst h; simp [hj]
      · by_cases h2 : j < i
        · simp [h, h2]
        · have : j - i ≠ 0 := by omega
          simp [h, this]
    unfold setBit
    rw [BitVec.getLsbD_or, BitVec.getLsbD_and, BitVec.getLsbD_not, hone]
    by_cases h : j = i
    · cases b
      · simp [h]
      · simp only [if_true, hone]
        simp [h]
    · cases b
      · simp [h, hj]
      · simp only [if_true, hone]
        simp [h, hj]
  · have h1 : ∀ y : Page, y.getLsbD j = false := fun y => BitVec.getLsbD_of_ge y j (by omega)
    have h2 : j ≠ i := by omega
    simp [h1, h2]

/-- A page whose bits from `w` on are clear is below `2 ^ w`, and conversely. -/
theorem page_lt_iff (x : Page) (w : Nat) : x.toNat < 2 ^ w ↔ ∀ j, w ≤ j → x.getLsbD j = false := by
  constructor
  · intro h j hj
    exact Nat.testBit_lt_two_pow (lt_of_lt_of_le h (Nat.pow_le_pow_right (by omega) hj))
  · intro h
    refine Nat.lt_pow_two_of_testBit _ fun j hj => ?_
    exact h j hj

/-- Setting a bit below `w` keeps a page below `2 ^ w`. -/
theorem setBit_lt {x : Page} {w i : Nat} (hx : x.toNat < 2 ^ w) (hi : i < w) (h13 : i < 13) (b : Bool) :
    (setBit x i b).toNat < 2 ^ w := by
  rw [page_lt_iff] at hx ⊢
  intro j hj
  rw [setBit_getLsbD x h13, if_neg (by omega)]
  exact hx j hj

/-- The boundary and the page width are between 10 and 13 (R6). -/
theorem pageWidth_bounds (c : CapacityClass) : 10 ≤ pageWidth c ∧ pageWidth c ≤ 13 := by
  cases c <;> simp [pageWidth, exponent]

theorem boundary_eq_pageWidth (c : CapacityClass) : boundary c = pageWidth c := rfl

/-- `MainStore` holds `2 ^ W` pages of 2 KiB (R6). -/
theorem capacity_eq (c : CapacityClass) : capacity c = 2 ^ pageWidth c * 2048 := by
  cases c <;> rfl

/-! ### Stores -/

/-- The byte at an offset: what is listed, else what an unlisted offset reads as, else the free value. -/
theorem State.storeByte_eq (s : State) (r : Region) (o : Nat) :
    s.storeByte r o = ((Memory.find (s.store r) o).or (s.unlisted r)).getD (Config.initialByte s.session r o) := by
  unfold State.storeByte
  cases Memory.find (s.store r) o <;> rfl

/-- A byte depends on its store's memory, the phase and the session number alone. -/
theorem State.storeByte_congr {s t : State} {r : Region} (hs : t.store r = s.store r)
    (hu : t.unlisted r = s.unlisted r) (hn : t.session = s.session) (o : Nat) : t.storeByte r o = s.storeByte r o := by
  rw [State.storeByte_eq, State.storeByte_eq, hs, hu, hn]

theorem State.unlisted_of_phase {s t : State} (h : t.phase = s.phase) (r : Region) : t.unlisted r = s.unlisted r := by
  cases r <;> simp [State.unlisted, h]

@[simp] theorem State.putByte_page (s : State) (ref : StoreRef) (v : Byte) : (s.putByte ref v).page = s.page := by
  simp [State.putByte]
@[simp] theorem State.putByte_selected (s : State) (ref : StoreRef) (v : Byte) :
    (s.putByte ref v).selected = s.selected := by simp [State.putByte]
@[simp] theorem State.putByte_wideModeActive (s : State) (ref : StoreRef) (v : Byte) :
    (s.putByte ref v).wideModeActive = s.wideModeActive := by simp [State.putByte]
@[simp] theorem State.putByte_hideSwitch (s : State) (ref : StoreRef) (v : Byte) :
    (s.putByte ref v).hideSwitch = s.hideSwitch := by simp [State.putByte]
@[simp] theorem State.putByte_cfg (s : State) (ref : StoreRef) (v : Byte) : (s.putByte ref v).cfg = s.cfg := by
  simp [State.putByte]
@[simp] theorem State.putByte_phase (s : State) (ref : StoreRef) (v : Byte) : (s.putByte ref v).phase = s.phase := by
  simp [State.putByte]
@[simp] theorem State.putByte_windows (s : State) (ref : StoreRef) (v : Byte) :
    (s.putByte ref v).windows = s.windows := by simp [State.putByte]
@[simp] theorem State.putByte_port (s : State) (ref : StoreRef) (v : Byte) : (s.putByte ref v).port = s.port := by
  simp [State.putByte]
@[simp] theorem State.putByte_result (s : State) (ref : StoreRef) (v : Byte) :
    (s.putByte ref v).result = s.result := by simp [State.putByte]
@[simp] theorem State.putByte_session (s : State) (ref : StoreRef) (v : Byte) :
    (s.putByte ref v).session = s.session := by simp [State.putByte]

/-- `MemWrite` changes one byte of one store. -/
theorem State.putByte_storeByte (s : State) (ref : StoreRef) (v : Byte) (r : Region) (o : Nat) :
    (s.putByte ref v).storeByte r o = if r = ref.region ∧ o = ref.off then v else s.storeByte r o := by
  have hu : (s.putByte ref v).unlisted r = s.unlisted r := State.unlisted_of_phase (by simp) r
  by_cases hr : r = ref.region
  · subst hr
    have hst : (s.putByte ref v).store ref.region =
        Memory.write (s.unlisted ref.region) (s.store ref.region) ref.off v := by simp [State.putByte]
    rw [State.storeByte_eq, hst, hu, Memory.find_write]
    by_cases ho : o = ref.off
    · simp [ho]
    · simp [ho, State.storeByte_eq]
  · have hst : (s.putByte ref v).store r = s.store r := by simp [State.putByte, hr]
    simp [hr, State.storeByte_congr hst hu (by simp)]

/-- A store's size depends on two fields of the record (R27). -/
theorem State.storeSize_congr {s t : State} (h1 : t.cfg.capacityClass = s.cfg.capacityClass)
    (h2 : t.cfg.expansionInstalled = s.cfg.expansionInstalled) (r : Region) : t.storeSize r = s.storeSize r := by
  cases r <;> simp [State.storeSize, h1, h2]

/-- Returning a value changes no byte. -/
@[simp] theorem State.respond_storeByte (s : State) (res : Result) (r : Region) (o : Nat) :
    (s.respond res).storeByte r o = s.storeByte r o :=
  State.storeByte_congr (by simp) (State.unlisted_of_phase (by simp) r) (by simp) o

/-- `MemRead` (R10): the byte where the place exists, a fault where it does not. -/
theorem State.memRead_eq (s : State) (ref : StoreRef) :
    s.memRead ref = if ref.off < s.storeSize ref.region then .ok (s.storeByte ref.region ref.off)
      else .error .storeOffsetOutOfRange := by
  simp [State.memRead, State.hasRef]

/-- `MemWrite` (R10). -/
theorem State.memWrite_eq (s : State) (ref : StoreRef) (v : Byte) :
    s.memWrite ref v = if ref.off < s.storeSize ref.region then .ok (s.putByte ref v)
      else .error .storeOffsetOutOfRange := by
  simp [State.memWrite, State.hasRef]

/-! ### Phases -/

theorem whenRunning_running {s : State} (h : s.phase = .running) (k : StepOutcome) : whenRunning s k = k := by
  simp [whenRunning, h]

theorem whenRunning_not {s : State} (h : s.phase ≠ .running) (k : StepOutcome) :
    whenRunning s k = .refused .notReset := by
  simp [whenRunning, h]

theorem whenRunning_next {s t : State} {k : StepOutcome} (h : whenRunning s k = .next t) :
    s.phase = .running ∧ k = .next t := by
  unfold whenRunning at h
  split_ifs at h with hp
  exact ⟨hp, h⟩

theorem beforeReset_next {s t : State} {k : StepOutcome} (h : beforeReset s k = .next t) :
    s.phase ≠ .running ∧ k = .next t := by
  unfold beforeReset at h
  split_ifs at h with hp
  exact ⟨hp, h⟩

/-! ### The bus requests -/

/-- What `RD` can do where it completes. -/
theorem execRd_next {x : Word} {s t : State} (h : execRd x s = .next t) :
    s.phase = .running ∧
      ((busDecode s x = .ok none ∧ t = s.respond (.byte none)) ∨
        ∃ ref, busDecode s x = .ok (some ref) ∧ ref.off < s.storeSize ref.region ∧
          t = s.respond (.byte (some (s.storeByte ref.region ref.off)))) := by
  obtain ⟨hp, h⟩ := whenRunning_next h
  refine ⟨hp, ?_⟩
  split at h
  · cases h
  · rename_i hd
    exact .inl ⟨hd, by cases h; rfl⟩
  · rename_i ref hd
    rw [State.memRead_eq] at h
    split_ifs at h with hr
    · exact .inr ⟨ref, hd, hr, by cases h; rfl⟩

/-- What `WR` can do where it completes. -/
theorem execWr_next {x : Word} {v : Byte} {s t : State} (h : execWr x v s = .next t) :
    s.phase = .running ∧
      ((busDecode s x = .ok none ∧ t = s.respond .nothing) ∨
        ∃ ref, busDecode s x = .ok (some ref) ∧ ref.off < s.storeSize ref.region ∧
          t = (s.putByte ref v).respond .nothing) := by
  obtain ⟨hp, h⟩ := whenRunning_next h
  refine ⟨hp, ?_⟩
  split at h
  · cases h
  · rename_i hd
    exact .inl ⟨hd, by cases h; rfl⟩
  · rename_i ref hd
    rw [State.memWrite_eq] at h
    split_ifs at h with hr
    · exact .inr ⟨ref, hd, hr, by cases h; rfl⟩

/-! ### The control requests -/

/-- What the drive-select step can do: keep the state, or force the top page bit. -/
theorem driveSelect_cases (a : Word) (k : Nat) (s : State) :
    driveSelect a k s = s ∨
      ∃ ds, driveSelect a k s = s.setPage (setBit s.page (boundary s.cfg.capacityClass - 1) ds) := by
  unfold driveSelect
  cases driveBit s a k with
  | none => exact .inl rfl
  | some ds => exact .inr ⟨ds, rfl⟩

/-- A control request completes wherever the block has been reset. -/
theorem controlRequest_running {s : State} (h : s.phase = .running) (a : Word) (k : Nat) (rule : State → State) :
    controlRequest a k rule s =
      .next (if qualifies s a then (driveSelect a k (rule s)).respond .nothing else s.respond .nothing) := by
  rw [controlRequest, whenRunning_running h]
  split_ifs <;> rfl

theorem controlRequest_next {s t : State} {a : Word} {k : Nat} {rule : State → State}
    (h : controlRequest a k rule s = .next t) :
    s.phase = .running ∧
      t = if qualifies s a then (driveSelect a k (rule s)).respond .nothing else s.respond .nothing := by
  have hp := (whenRunning_next h).1
  rw [controlRequest_running hp] at h
  exact ⟨hp, by cases h; rfl⟩

/-! ### Images -/

/-- Byte `i` of the image that `SAVE` emits (R131). -/
theorem savedImage_byte (s : State) (i : Nat) :
    imageByte (savedImage s) i =
      if i < capacity s.cfg.capacityClass then s.storeByte .main i
      else if i < capacity s.cfg.capacityClass + firmwareBytes then
        s.storeByte .firmware (i - capacity s.cfg.capacityClass)
      else 0#8 := by
  unfold savedImage
  generalize capacity s.cfg.capacityClass = n
  by_cases hp : s.phase = .constructed
  · simp only [hp, if_true, imageByte_imageOfBytes, State.storeBytes]
    rw [List.getD_eq_getElem?_getD, List.getElem?_append]
    simp only [List.length_map, List.length_range, List.getElem?_map]
    split_ifs with h1 h2
    · simp [h1]
    · rw [List.getElem?_range (by omega)]
      rfl
    · rw [List.getElem?_eq_none (by simp; omega)]
      rfl
  · have hm : ∀ o, s.storeByte .main o = (Memory.find s.mainStore o).getD 0#8 := by
      intro o; rw [State.storeByte_eq]; cases h : Memory.find s.mainStore o <;> simp [State.unlisted, hp, h]
    have hf : ∀ o, s.storeByte .firmware o = (Memory.find s.firmwareStore o).getD 0#8 := by
      intro o; rw [State.storeByte_eq]; cases h : Memory.find s.firmwareStore o <;> simp [State.unlisted, hp, h]
    simp only [hp, if_false, imageByte, Memory.find_append, Memory.find_slice, Memory.find_shift, hm, hf, Nat.zero_add]
    split_ifs <;> first | omega | simp

theorem savedImage_length (s : State) :
    (savedImage s).length = capacity s.cfg.capacityClass + firmwareBytes := by
  unfold savedImage
  split_ifs <;> simp [imageOfBytes, State.storeBytes]

/-- Byte `i` of `MainStore`'s memory after a load (R133). -/
theorem loadedMain_find (c : CapacityClass) (img : Image) {i : Nat} (hi : i < capacity c) :
    (Memory.find (loadedMain c img) i).getD 0#8 =
      if i < img.length - firmwareBytes then imageByte img i else 0#8 := by
  unfold loadedMain imageByte
  split_ifs with h1 h2 h2
  · omega
  · simp
  · rw [Memory.find_slice, if_pos (by omega), Nat.zero_add]
  · rw [Memory.find_slice, if_neg (by omega)]
    rfl

/-- Byte `i` of `FirmwareStore`'s memory after a load (R133). -/
theorem loadedFirmware_find (img : Image) {i : Nat} (hi : i < firmwareBytes) :
    (Memory.find (loadedFirmware img) i).getD 0#8 =
      if img.length < firmwareBytes then 0#8 else imageByte img (img.length - firmwareBytes + i) := by
  unfold loadedFirmware imageByte
  split_ifs with h1
  · simp
  · rw [Memory.find_slice, if_pos hi]

/-- Both battery-backed stores after an image is put into them: an unlisted byte is 0x00 (R133, R134). -/
theorem withImage_main (s : State) (m f : Memory) (o : Nat) :
    (s.withImage m f).storeByte .main o = (Memory.find m o).getD 0#8 := by
  rw [State.storeByte_eq, show (s.withImage m f).store .main = m from rfl,
    show (s.withImage m f).unlisted .main = some 0#8 from rfl]
  cases Memory.find m o <;> rfl

theorem withImage_firmware (s : State) (m f : Memory) (o : Nat) :
    (s.withImage m f).storeByte .firmware o = (Memory.find f o).getD 0#8 := by
  rw [State.storeByte_eq, show (s.withImage m f).store .firmware = f from rfl,
    show (s.withImage m f).unlisted .firmware = some 0#8 from rfl]
  cases Memory.find f o <;> rfl

/-- No image reaches `ExpansionStore` (R135). -/
theorem withImage_expansion (s : State) (m f : Memory) (o : Nat) :
    (s.withImage m f).storeByte .expansion o = s.storeByte .expansion o :=
  State.storeByte_congr rfl rfl rfl o

/-! ### The step -/

/-- What one step does. -/
theorem step_cases (s : State) :
    (s.port = [] ∧ step s = .next s) ∨
      ∃ r rest, s.port = r :: rest ∧
        ((∃ e, decode r = .error e ∧ step s = .refused (.malformedRequest e)) ∨
          ∃ i, decode r = .ok i ∧ step s = exec i (s.setPort rest)) := by
  unfold step State.fetch
  cases h : s.port with
  | nil => exact .inl ⟨rfl, rfl⟩
  | cons r rest =>
    refine .inr ⟨r, rest, rfl, ?_⟩
    cases hd : decode r with
    | error e => exact .inl ⟨e, rfl, by simp [hd]⟩
    | ok i => exact .inr ⟨i, rfl, by simp [hd]⟩

end Sys2Proof.Machine
end

