-- ==== Sys2Proof/Laws/Control.lean ====
section
/-! SUPPORT. Everything a control write can do where it completes (41_control_register.md R97, R116). -/

namespace Sys2Proof.Machine

/-- What the rule of control bit `k` may do to a state: write `selected` (bit 0), `wideModeActive` (bit 15, where it is
allowed) and page bits below `W`. -/
structure RuleFrame (k : Nat) (rule : State → State) (s : State) (sel wide : Bool) (p : Page) : Prop where
  eq : rule s = ((s.setSelected sel).setWide wide).setPage p
  selected : k ≠ 0 → sel = s.selected
  wideBit : k ≠ 15 → wide = s.wideModeActive
  wideAllowed : s.cfg.wideModeAllowed = false → wide = s.wideModeActive
  fits : s.page.toNat < 2 ^ pageWidth s.cfg.capacityClass → p.toNat < 2 ^ pageWidth s.cfg.capacityClass

/-- Each rule writes at most one of the three registers. -/
theorem rule_page_frame {k : Nat} {rule : State → State} {s : State} {i : Nat} {v : Bool}
    (h : rule s = s ∨ (rule s = s.setPage (setBit s.page i v) ∧ i < pageWidth s.cfg.capacityClass)) :
    ∃ sel wide p, RuleFrame k rule s sel wide p := by
  have hw := pageWidth_bounds s.cfg.capacityClass
  rcases h with h | ⟨h, hi⟩
  · exact ⟨_, _, _, by rw [h]; rfl, fun _ => rfl, fun _ => rfl, fun _ => rfl, fun h => h⟩
  · exact ⟨_, _, _, by rw [h]; rfl, fun _ => rfl, fun _ => rfl, fun _ => rfl, fun h => setBit_lt h hi (by omega) v⟩

/-- A control instruction is the control request of its tuple, with a rule that stays in its frame. -/
theorem exec_control {i : Instr} {a : Word} {k : Nat} {v : Bool} (h : controlTuple i = some (a, k, v)) :
    ∃ rule, (∀ s, exec i s = controlRequest a k rule s) ∧ ∀ s, ∃ sel wide p, RuleFrame k rule s sel wide p := by
  have hmid : ∀ (n : Nat) (v : Bool) (k : Nat) (s : State), n < 10 → ∃ sel wide p, RuleFrame k (midPageRule n v) s sel wide p := by
    intro n v k s hn
    have hw := pageWidth_bounds s.cfg.capacityClass
    exact rule_page_frame (i := n) (v := v) (.inr ⟨rfl, by omega⟩)
  have hlow : ∀ (n : Nat) (v : Bool) (k : Nat) (s : State), n < 10 → ∃ sel wide p, RuleFrame k (lowPageRule n v) s sel wide p := by
    intro n v k s hn
    have hw := pageWidth_bounds s.cfg.capacityClass
    refine rule_page_frame (i := n) (v := v) ?_
    unfold lowPageRule
    split_ifs
    · exact .inl rfl
    · exact .inr ⟨rfl, by omega⟩
  have hhigh : ∀ (k : Nat) (v : Bool) (s : State), 0 < k → ∃ sel wide p, RuleFrame k (highPageRule k (k - 1) v) s sel wide p := by
    intro k v s hk
    refine rule_page_frame (i := k - 1) (v := v) ?_
    unfold highPageRule
    split_ifs with hc
    · exact .inr ⟨rfl, by rw [← boundary_eq_pageWidth]; omega⟩
    · exact .inl rfl
  cases i <;> simp only [controlTuple, Option.some.injEq, Prod.mk.injEq, reduceCtorEq] at h <;>
    obtain ⟨rfl, rfl, rfl⟩ := h
  case ctlSel a v =>
    exact ⟨_, fun s => rfl, fun s => ⟨v, _, _, rfl, fun h => absurd rfl h, fun _ => rfl, fun _ => rfl, fun h => h⟩⟩
  case ctlPg1 a v => exact ⟨_, fun s => rfl, fun s => hlow 1 v 1 s (by omega)⟩
  case ctlPg0 a v => exact ⟨_, fun s => rfl, fun s => hlow 0 v 2 s (by omega)⟩
  case ctlPg2 a v => exact ⟨_, fun s => rfl, fun s => hmid 2 v 3 s (by omega)⟩
  case ctlPg3 a v => exact ⟨_, fun s => rfl, fun s => hmid 3 v 4 s (by omega)⟩
  case ctlPg4 a v => exact ⟨_, fun s => rfl, fun s => hmid 4 v 5 s (by omega)⟩
  case ctlPg5 a v => exact ⟨_, fun s => rfl, fun s => hmid 5 v 6 s (by omega)⟩
  case ctlPg6 a v => exact ⟨_, fun s => rfl, fun s => hmid 6 v 7 s (by omega)⟩
  case ctlPg7 a v => exact ⟨_, fun s => rfl, fun s => hmid 7 v 8 s (by omega)⟩
  case ctlPg8 a v => exact ⟨_, fun s => rfl, fun s => hmid 8 v 9 s (by omega)⟩
  case ctlPg9 a v => exact ⟨_, fun s => rfl, fun s => hhigh 10 v s (by omega)⟩
  case ctlPg10 a v => exact ⟨_, fun s => rfl, fun s => hhigh 11 v s (by omega)⟩
  case ctlPg11 a v => exact ⟨_, fun s => rfl, fun s => hhigh 12 v s (by omega)⟩
  case ctlPg12 a v => exact ⟨_, fun s => rfl, fun s => hhigh 13 v s (by omega)⟩
  case ctlRsv a v =>
    exact ⟨_, fun s => rfl, fun s => ⟨_, _, _, rfl, fun _ => rfl, fun _ => rfl, fun _ => rfl, fun h => h⟩⟩
  case ctlWide a v =>
    refine ⟨_, fun s => rfl, fun s => ?_⟩
    cases h : s.cfg.wideModeAllowed with
    | false =>
      exact ⟨_, _, _, by rw [wideRule, if_neg (by simp [h])]; rfl, fun _ => rfl, fun _ => rfl, fun _ => rfl, fun h => h⟩
    | true =>
      exact ⟨_, v, _, by rw [wideRule, if_pos h]; rfl, fun _ => rfl, fun hk => absurd rfl hk, fun h' => by simp [h] at h', fun h => h⟩

/-- Where a control instruction completes, only `selected`, `wideModeActive` and `page` change, each by its own bits. -/
theorem control_next {i : Instr} {a : Word} {k : Nat} {v : Bool} {s t : State} (h : controlTuple i = some (a, k, v))
    (he : exec i s = .next t) :
    s.phase = .running ∧ ∃ sel wide p, t = (((s.setSelected sel).setWide wide).setPage p).respond .nothing ∧
      (k ≠ 0 → sel = s.selected) ∧ (k ≠ 15 → wide = s.wideModeActive) ∧
      (s.cfg.wideModeAllowed = false → wide = s.wideModeActive) ∧
      (s.page.toNat < 2 ^ pageWidth s.cfg.capacityClass → p.toNat < 2 ^ pageWidth s.cfg.capacityClass) := by
  obtain ⟨rule, hr, hf⟩ := exec_control h
  rw [hr] at he
  obtain ⟨hp, ht⟩ := controlRequest_next he
  refine ⟨hp, ?_⟩
  obtain ⟨sel, wide, p, heq, h1, h2, h3, h4⟩ := hf s
  have hw := pageWidth_bounds s.cfg.capacityClass
  split_ifs at ht
  · rcases driveSelect_cases a k (rule s) with hd | ⟨ds, hd⟩
    · exact ⟨sel, wide, p, by rw [ht, hd, heq], h1, h2, h3, h4⟩
    · refine ⟨sel, wide, setBit p (boundary s.cfg.capacityClass - 1) ds, ?_, h1, h2, h3, fun h => ?_⟩
      · rw [ht, hd, heq]
        rfl
      · exact setBit_lt (h4 h) (by rw [boundary_eq_pageWidth]; omega) (by rw [boundary_eq_pageWidth]; omega) ds
  · exact ⟨s.selected, s.wideModeActive, s.page, ht, fun _ => rfl, fun _ => rfl, fun _ => rfl, fun h => h⟩
end Sys2Proof.Machine
end

