-- ==== Sys2Proof/Laws/Decode.lean ====
section
/-! SUPPORT. The fields of raw requests in arithmetic, and what each format's bytes are cut into. -/

open Sys2Proof.Machine

namespace Sys2Proof
/-- Concatenation adds, the upper part scaled. -/
theorem toNat_append_add {n m : Nat} (x : BitVec n) (y : BitVec m) : (x ++ y).toNat = x.toNat * 2 ^ m + y.toNat := by
  rw [BitVec.toNat_append, ← Nat.shiftLeft_add_eq_or_of_lt y.isLt, Nat.shiftLeft_eq]

theorem wordOfBytes_toNat (lo hi : Byte) : (wordOfBytes lo hi).toNat = lo.toNat + 256 * hi.toNat := by
  unfold wordOfBytes
  rw [toNat_append_add]
  omega
theorem lowByte_toNat (w : Word) : (lowByte w).toNat = w.toNat % 256 := by
  simp [lowByte, BitVec.extractLsb'_toNat]
theorem highByte_toNat (w : Word) : (highByte w).toNat = w.toNat / 256 := by
  have := w.isLt
  simp [highByte, BitVec.extractLsb'_toNat, Nat.shiftRight_eq_div_pow]; omega
theorem wordOfBytes_bytes (w : Word) : wordOfBytes (lowByte w) (highByte w) = w := by
  apply BitVec.eq_of_toNat_eq
  rw [wordOfBytes_toNat, lowByte_toNat, highByte_toNat]; omega
theorem bytes_wordOfBytes (lo hi : Byte) : lowByte (wordOfBytes lo hi) = lo ∧ highByte (wordOfBytes lo hi) = hi := by
  constructor <;> apply BitVec.eq_of_toNat_eq
  · rw [lowByte_toNat, wordOfBytes_toNat]; omega
  · rw [highByte_toNat, wordOfBytes_toNat]; omega
theorem controlIndex_toNat (b0 : Byte) : (controlIndex b0).toNat = b0.toNat % 16 := by
  simp [controlIndex, BitVec.extractLsb'_toNat]
theorem controlAddress_toNat (b0 b1 b2 : Byte) :
    (controlAddress b0 b1 b2).toNat = b0.toNat / 16 + 16 * b1.toNat + 4096 * (b2.toNat % 16) := by
  unfold controlAddress
  rw [toNat_append_add, toNat_append_add]
  simp only [BitVec.extractLsb'_toNat, Nat.shiftRight_eq_div_pow]
  omega
theorem controlValue_eq (b2 : Byte) : controlValue b2 = decide (b2.toNat / 16 % 2 = 1) := by
  simp [controlValue, BitVec.getLsbD, Nat.testBit_eq_decide_div_mod_eq]
theorem padding_iff (b2 : Byte) : b2.extractLsb' 5 3 = 0#3 ↔ b2.toNat < 32 := by
  rw [← BitVec.toNat_inj]
  have := b2.isLt
  simp only [BitVec.extractLsb'_toNat, Nat.shiftRight_eq_div_pow, BitVec.toNat_ofNat]
  omega

theorem controlRow_tuple (k : BitVec 4) (a : Word) (v : Bool) : controlTuple (controlRow k a v) = some (a, k.toNat, v) := by
  have := k.isLt
  unfold controlRow
  split <;> simp_all [controlTuple]
  omega

/-- The three bytes of a tuple are cut into the tuple. -/
theorem decode_controlBytes (k : BitVec 4) (a : Word) (v : Bool) :
    decodeControl (controlBytes k a v) = .ok (controlRow k a v) := by
  have hk := k.isLt
  have ha := a.isLt
  have hv : (BitVec.ofBool v).toNat = if v then 1 else 0 := by cases v <;> rfl
  have hb2 : (0#3 ++ BitVec.ofBool v ++ a.extractLsb' 12 4 : Byte).toNat = (if v then 16 else 0) + a.toNat / 4096 := by
    rw [toNat_append_add, toNat_append_add, hv]
    simp only [BitVec.extractLsb'_toNat, Nat.shiftRight_eq_div_pow, BitVec.toNat_ofNat]
    split_ifs <;> omega
  have hb0 : (a.extractLsb' 0 4 ++ k : Byte).toNat = a.toNat % 16 * 16 + k.toNat := by
    rw [toNat_append_add]
    simp [BitVec.extractLsb'_toNat]
  have hb1 : (a.extractLsb' 4 8 : Byte).toNat = a.toNat / 16 % 256 := by
    simp [BitVec.extractLsb'_toNat, Nat.shiftRight_eq_div_pow]
  have e1 : controlIndex (a.extractLsb' 0 4 ++ k) = k := by
    apply BitVec.eq_of_toNat_eq
    rw [controlIndex_toNat, hb0]
    omega
  have e2 : controlAddress (a.extractLsb' 0 4 ++ k) (a.extractLsb' 4 8)
      (0#3 ++ BitVec.ofBool v ++ a.extractLsb' 12 4) = a := by
    apply BitVec.eq_of_toNat_eq
    rw [controlAddress_toNat, hb0, hb1, hb2]
    split_ifs <;> omega
  have e3 : controlValue (0#3 ++ BitVec.ofBool v ++ a.extractLsb' 12 4) = v := by
    rw [controlValue_eq, hb2]
    cases v <;> simp <;> omega
  have e4 : (0#3 ++ BitVec.ofBool v ++ a.extractLsb' 12 4 : Byte).extractLsb' 5 3 = 0#3 := by
    rw [padding_iff, hb2]
    split_ifs <;> omega
  simp only [controlBytes, decodeControl, e1, e2, e3, e4, if_true]

theorem controlBytes_cut {b0 b1 b2 : Byte} (h : b2.extractLsb' 5 3 = 0#3) :
    controlBytes (controlIndex b0) (controlAddress b0 b1 b2) (controlValue b2) = [b0, b1, b2] := by
  rw [padding_iff] at h
  have h0 := b0.isLt
  have h1 := b1.isLt
  have hA := controlAddress_toNat b0 b1 b2
  have hI := controlIndex_toNat b0
  have hV := controlValue_eq b2
  generalize controlAddress b0 b1 b2 = a at *
  generalize controlIndex b0 = k at *
  generalize controlValue b2 = v at *
  have hv : (BitVec.ofBool v).toNat = if v then 1 else 0 := by cases v <;> rfl
  simp only [controlBytes, List.cons.injEq, and_true]
  refine ⟨?_, ?_, ?_⟩ <;> apply BitVec.eq_of_toNat_eq
  · rw [toNat_append_add]
    simp only [BitVec.extractLsb'_toNat, Nat.shiftRight_eq_div_pow]
    omega
  · simp only [BitVec.extractLsb'_toNat, Nat.shiftRight_eq_div_pow]
    omega
  · rw [toNat_append_add, toNat_append_add, hv]
    simp only [BitVec.extractLsb'_toNat, Nat.shiftRight_eq_div_pow, BitVec.toNat_ofNat]
    subst hV
    simp only [decide_eq_true_eq]
    split_ifs <;> omega

theorem configOfBytes_bytes (c : ConfigRecord) :
    configOfBytes (configFlags c) (lowByte c.baseA) (highByte c.baseA) (lowByte c.baseB) (highByte c.baseB) = some c := by
  have hs : splitModeOfCode ((configFlags c).extractLsb' 3 2) = some c.splitMode ∧
      capacityOfCode ((configFlags c).extractLsb' 0 2) = c.capacityClass ∧
      (configFlags c).getLsbD 2 = c.expansionInstalled ∧ (configFlags c).getLsbD 5 = c.wideModeAllowed ∧
      (configFlags c).getLsbD 6 = c.hideSwitch ∧ (configFlags c).getLsbD 7 = c.genmodFix := by
    obtain ⟨cap, e, m, w, h, g, a, b⟩ := c
    simp only [configFlags]
    clear a b
    cases cap <;> cases m <;> revert e w h g <;> decide
  obtain ⟨h1, h2, h3, h4, h5, h6⟩ := hs
  simp only [configOfBytes, wordOfBytes_bytes, h1, h2, h3, h4, h5, h6]

theorem configFlags_cut (f aLo aHi bLo bHi : Byte) (c : ConfigRecord) (h : configOfBytes f aLo aHi bLo bHi = some c) :
    configFlags c = f ∧ c.baseA = wordOfBytes aLo aHi ∧ c.baseB = wordOfBytes bLo bHi := by
  unfold configOfBytes at h
  split at h
  · cases h
  · rename_i m hm
    cases h
    refine ⟨?_, rfl, rfl⟩
    simp only [configFlags]
    cases m <;> revert f <;> decide
end Sys2Proof
end

