-- ==== Sys2Proof/Laws/Operands.lean ====
section
/-! SUPPORT. The fields and store offsets in arithmetic (R67, R68, R84), and everything the decoder can answer (R80). -/

namespace Sys2Proof.Machine
theorem wrel_toNat (x : Word) : (wrel x).toNat = x.toNat % 8192 := by
  have : (0x1FFF#16).toNat = 2 ^ 13 - 1 := rfl
  rw [wrel, BitVec.toNat_and, this, Nat.and_two_pow_sub_one_eq_mod]

theorem ipo_toNat (x : Word) : (ipo x).toNat = x.toNat % 2048 := by
  have : (0x7FF#16).toNat = 2 ^ 11 - 1 := rfl
  rw [ipo, BitVec.toNat_and, this, Nat.and_two_pow_sub_one_eq_mod]

/-- The window of an offset in arithmetic (R67). -/
theorem winBase_toNat (x : Word) : (winBase x).toNat = x.toNat / 8192 * 8192 := by
  have h : winBase x = x >>> 13 <<< 13 := by
    unfold winBase
    ext j hj
    simp only [BitVec.getElem_and, BitVec.getElem_shiftLeft]
    interval_cases j <;> simp
  have := x.isLt
  rw [h, BitVec.toNat_shiftLeft, BitVec.toNat_ushiftRight, Nat.shiftRight_eq_div_pow, Nat.shiftLeft_eq]
  omega

theorem inOverlay_eq (x : Word) : inOverlay x = decide (6144 ≤ x.toNat % 8192) := by
  have h : inOverlay x = ((wrel x) >>> 11 == 3#16) := by
    unfold inOverlay wrel
    rw [Bool.eq_iff_iff]
    simp only [beq_iff_eq]
    constructor
    · intro h
      have h11 := congrArg (BitVec.getLsbD · 11) h
      have h12 := congrArg (BitVec.getLsbD · 12) h
      simp at h11 h12
      ext j hj
      interval_cases j <;> simp_all
    · intro h
      have h0 := congrArg (BitVec.getLsbD · 0) h
      have h1 := congrArg (BitVec.getLsbD · 1) h
      simp at h0 h1
      ext j hj
      interval_cases j <;> simp_all
  rw [h, Bool.eq_iff_iff, beq_iff_eq, ← BitVec.toNat_inj, BitVec.toNat_ushiftRight, wrel_toNat, Nat.shiftRight_eq_div_pow,
    decide_eq_true_eq]
  simp only [BitVec.toNat_ofNat]
  omega

theorem overlayOffset_eq (p : Page) (x : Word) : overlayOffset p x = p.toNat * 2048 + x.toNat % 2048 := by
  have hp := p.isLt
  have hi : (ipo x).toNat < 2 ^ 11 := by rw [ipo_toNat]; omega
  unfold overlayOffset
  rw [BitVec.toNat_or, BitVec.toNat_shiftLeft, BitVec.toNat_setWidth, BitVec.toNat_setWidth,
    Nat.mod_eq_of_lt (a := p.toNat) (by omega), Nat.mod_eq_of_lt (a := (ipo x).toNat) (by omega),
    Nat.mod_eq_of_lt (a := p.toNat <<< 11) (by rw [Nat.shiftLeft_eq]; omega),
    ← Nat.shiftLeft_add_eq_or_of_lt hi, Nat.shiftLeft_eq, ipo_toNat]

theorem page_clear_low (p : Page) : (p &&& ~~~0x3#13).toNat = p.toNat / 4 * 4 := by
  have h : p &&& ~~~0x3#13 = p >>> 2 <<< 2 := by
    ext j hj
    simp only [BitVec.getElem_and, BitVec.getElem_shiftLeft]
    interval_cases j <;> simp
  have := p.isLt
  rw [h, BitVec.toNat_shiftLeft, BitVec.toNat_ushiftRight, Nat.shiftRight_eq_div_pow, Nat.shiftLeft_eq]
  omega

theorem wideOffset_eq (p : Page) (x : Word) : wideOffset p x = p.toNat / 4 * 8192 + x.toNat % 8192 := by
  have hp := p.isLt
  have hi : (wrel x).toNat < 2 ^ 13 := by rw [wrel_toNat]; omega
  have e : (p.toNat / 4 * 4) <<< 11 = (p.toNat / 4) <<< 13 := by rw [Nat.shiftLeft_eq, Nat.shiftLeft_eq]; omega
  unfold wideOffset
  rw [BitVec.toNat_or, BitVec.toNat_shiftLeft, BitVec.toNat_setWidth, BitVec.toNat_setWidth, page_clear_low,
    Nat.mod_eq_of_lt (a := p.toNat / 4 * 4) (by omega), Nat.mod_eq_of_lt (a := (wrel x).toNat) (by omega),
    Nat.mod_eq_of_lt (a := (p.toNat / 4 * 4) <<< 11) (by rw [Nat.shiftLeft_eq]; omega), e,
    ← Nat.shiftLeft_add_eq_or_of_lt hi, Nat.shiftLeft_eq, wrel_toNat]

theorem expansionOffset_lt {w : ExpansionWindow} (h : w.off.toNat ≤ 0x6000) (x : Word) : expansionOffset w x < 32768 := by
  unfold expansionOffset
  rw [BitVec.toNat_or]
  have : (wrel x).toNat < 2 ^ 15 := by rw [wrel_toNat]; omega
  exact Nat.or_lt_two_pow (n := 15) (by omega) this

/-- The decoder reads `page`, the flags, the record and the window parameters, and nothing else (R80). -/
theorem busDecode_congr {s t : State} (h1 : t.page = s.page) (h2 : t.selected = s.selected)
    (h3 : t.wideModeActive = s.wideModeActive) (h4 : t.hideSwitch = s.hideSwitch) (h5 : t.cfg = s.cfg)
    (h6 : t.windows = s.windows) (x : Word) : busDecode t x = busDecode s x := by
  simp only [busDecode, decodePlain, decodeWide, inFw, inCart, windowTest, expansionHit, h1, h2, h3, h4, h5, h6]

/-- Each answer of the decoder that is a place, with the step of R80 that gives it. -/
theorem busDecode_some {s : State} {x : Word} {ref : StoreRef} (h : busDecode s x = .ok (some ref)) :
    (∃ w, expansionHit s x = some w ∧ ref = ⟨.expansion, expansionOffset w x⟩) ∨
    (expansionHit s x = none ∧ s.hideSwitch = false ∧ s.selected = true ∧ s.wideModeActive = false ∧
      inFw s x = .ok true ∧
      ((inOverlay x = true ∧ ref = ⟨.main, overlayOffset s.page x⟩) ∨
        (inOverlay x = false ∧ ref = ⟨.firmware, firmwareOffset x⟩))) ∨
    (expansionHit s x = none ∧ s.hideSwitch = false ∧ s.wideModeActive = true ∧
      ((inFw s x = .ok true ∧ ref = ⟨.firmware, firmwareOffset x⟩) ∨
        (inFw s x = .ok false ∧ inCart s x = .ok true ∧ ref = ⟨.main, wideOffset s.page x⟩))) := by
  unfold busDecode at h
  cases he : expansionHit s x with
  | some w =>
    rw [he] at h
    cases h
    exact .inl ⟨w, rfl, rfl⟩
  | none =>
    refine .inr ?_
    cases hh : s.hideSwitch <;> cases hsel : s.selected <;> cases hw : s.wideModeActive <;>
      simp only [he, hh, hsel, hw, decodePlain, decodeWide, Bool.not_false, Bool.not_true, Bool.and_true,
        Bool.and_false, if_true, if_false, reduceCtorEq, Except.ok.injEq, Bool.false_eq_true] at h
    all_goals
      cases hf : inFw s x with
      | error r => simp [hf] at h
      | ok b =>
        cases b
        · cases hc : inCart s x with
          | error r => simp_all
          | ok b => cases b <;> simp_all
        · cases ho : inOverlay x <;> simp_all

/-- A hit of an expansion sub-window is one of the four, where expansion is installed. -/
theorem expansionHit_some {s : State} {x : Word} {w : ExpansionWindow} (h : expansionHit s x = some w) :
    s.cfg.expansionInstalled = true ∧ w ∈ expansionWindows s.windows ∧ winBase x = w.base := by
  unfold expansionHit at h
  split_ifs at h with hi
  have hm := List.mem_of_find?_eq_some h
  have hp := List.find?_some h
  exact ⟨hi, hm, by simpa [inExp] using hp⟩

end Sys2Proof.Machine
end

