-- ==== Sys2Proof/Laws/PerInstr.lean ====
section
/-! SUPPORT. Statements for all instructions, one lemma for each constructor. -/

namespace Sys2Proof.Laws

/-- The number of bytes that carry an operation's field tuple. -/
def shapeBytes : PortOp → Nat
  | .read => 2
  | .write => 3
  | .controlBitWrite => 3
  | .reset => 5
  | .setHideSwitch => 1
  | .persistDefault => 0
  | .persistSave => 0

/-- The request is the image itself for a `LOAD`, and as many bytes as its operation's format has for every other
instruction: "Every request has one fixed shape" (R73). -/
def FixedShape.Statement (i : Instr) : Prop :=
  (∃ img, i = .loadImage img ∧ encode i = .persistLoad img) ∨
    ∃ op bytes, encode i = .fields op bytes ∧ bytes.length = shapeBytes op

theorem FixedShape.rd (x : Word) : FixedShape.Statement (.rd x) := .inr ⟨_, _, rfl, rfl⟩

theorem FixedShape.wr (x : Word) (v : Byte) : FixedShape.Statement (.wr x v) := .inr ⟨_, _, rfl, rfl⟩

theorem FixedShape.ctlSel (a : Word) (v : Bool) : FixedShape.Statement (.ctlSel a v) := .inr ⟨_, _, rfl, rfl⟩

theorem FixedShape.ctlPg1 (a : Word) (v : Bool) : FixedShape.Statement (.ctlPg1 a v) := .inr ⟨_, _, rfl, rfl⟩

theorem FixedShape.ctlPg0 (a : Word) (v : Bool) : FixedShape.Statement (.ctlPg0 a v) := .inr ⟨_, _, rfl, rfl⟩

theorem FixedShape.ctlPg2 (a : Word) (v : Bool) : FixedShape.Statement (.ctlPg2 a v) := .inr ⟨_, _, rfl, rfl⟩

theorem FixedShape.ctlPg3 (a : Word) (v : Bool) : FixedShape.Statement (.ctlPg3 a v) := .inr ⟨_, _, rfl, rfl⟩

theorem FixedShape.ctlPg4 (a : Word) (v : Bool) : FixedShape.Statement (.ctlPg4 a v) := .inr ⟨_, _, rfl, rfl⟩

theorem FixedShape.ctlPg5 (a : Word) (v : Bool) : FixedShape.Statement (.ctlPg5 a v) := .inr ⟨_, _, rfl, rfl⟩

theorem FixedShape.ctlPg6 (a : Word) (v : Bool) : FixedShape.Statement (.ctlPg6 a v) := .inr ⟨_, _, rfl, rfl⟩

theorem FixedShape.ctlPg7 (a : Word) (v : Bool) : FixedShape.Statement (.ctlPg7 a v) := .inr ⟨_, _, rfl, rfl⟩

theorem FixedShape.ctlPg8 (a : Word) (v : Bool) : FixedShape.Statement (.ctlPg8 a v) := .inr ⟨_, _, rfl, rfl⟩

theorem FixedShape.ctlPg9 (a : Word) (v : Bool) : FixedShape.Statement (.ctlPg9 a v) := .inr ⟨_, _, rfl, rfl⟩

theorem FixedShape.ctlPg10 (a : Word) (v : Bool) : FixedShape.Statement (.ctlPg10 a v) := .inr ⟨_, _, rfl, rfl⟩

theorem FixedShape.ctlPg11 (a : Word) (v : Bool) : FixedShape.Statement (.ctlPg11 a v) := .inr ⟨_, _, rfl, rfl⟩

theorem FixedShape.ctlPg12 (a : Word) (v : Bool) : FixedShape.Statement (.ctlPg12 a v) := .inr ⟨_, _, rfl, rfl⟩

theorem FixedShape.ctlRsv (a : Word) (v : Bool) : FixedShape.Statement (.ctlRsv a v) := .inr ⟨_, _, rfl, rfl⟩

theorem FixedShape.ctlWide (a : Word) (v : Bool) : FixedShape.Statement (.ctlWide a v) := .inr ⟨_, _, rfl, rfl⟩

theorem FixedShape.reset (c : ConfigRecord) : FixedShape.Statement (.reset c) := .inr ⟨_, _, rfl, rfl⟩

theorem FixedShape.hide (b : Bool) : FixedShape.Statement (.hide b) := .inr ⟨_, _, rfl, rfl⟩

theorem FixedShape.loadImage (img : Image) : FixedShape.Statement (.loadImage img) := .inl ⟨img, rfl, rfl⟩

theorem FixedShape.defaultImage : FixedShape.Statement .defaultImage := .inr ⟨_, _, rfl, rfl⟩

theorem FixedShape.saveImage : FixedShape.Statement .saveImage := .inr ⟨_, _, rfl, rfl⟩

end Sys2Proof.Laws
end

