-- ==== Sys2Proof/Laws/Port.lean ====
section
/-! SUPPORT. No instruction looks at the requests pending behind it (20_memory.md R48). -/

namespace Sys2Proof.Machine

/-- The outcome with other requests pending. -/
def withPort (q : List PortRequest) : StepOutcome → StepOutcome
  | .next t => .next (t.setPort q)
  | .fault f => .fault f
  | .refused r => .refused r

theorem State.storeByte_setPort (s : State) (q : List PortRequest) (r : Region) (o : Nat) :
    (s.setPort q).storeByte r o = s.storeByte r o :=
  State.storeByte_congr (by simp) (State.unlisted_of_phase rfl r) rfl o

theorem State.putByte_setPort (s : State) (q : List PortRequest) (ref : StoreRef) (v : Byte) :
    (s.setPort q).putByte ref v = (s.putByte ref v).setPort q := by
  obtain ⟨r, o⟩ := ref
  cases r <;> rfl

theorem driveSelect_setPort (a : Word) (k : Nat) (s : State) (q : List PortRequest) :
    driveSelect a k (s.setPort q) = (driveSelect a k s).setPort q := by
  have h : driveBit (s.setPort q) a k = driveBit s a k := rfl
  rw [driveSelect, driveSelect, h]
  cases driveBit s a k <;> rfl

theorem controlRequest_setPort {rule : State → State} (hr : ∀ s q, rule (s.setPort q) = (rule s).setPort q)
    (a : Word) (k : Nat) (s : State) (q : List PortRequest) :
    controlRequest a k rule (s.setPort q) = withPort q (controlRequest a k rule s) := by
  by_cases hp : s.phase = .running
  · have hq : qualifies (s.setPort q) a = qualifies s a := rfl
    rw [controlRequest_running hp, controlRequest_running (s := s.setPort q) hp, hr, driveSelect_setPort, hq]
    cases qualifies s a <;> rfl
  · rw [controlRequest, controlRequest, whenRunning_not hp, whenRunning_not (s := s.setPort q) hp]
    rfl

theorem lowPageRule_setPort (i : Nat) (v : Bool) (s : State) (q : List PortRequest) :
    lowPageRule i v (s.setPort q) = (lowPageRule i v s).setPort q := by
  unfold lowPageRule
  cases h : s.wideModeActive <;> simp only [State.setPort_wideModeActive, h, Bool.false_eq_true, if_false, if_true] <;> rfl

theorem highPageRule_setPort (k i : Nat) (v : Bool) (s : State) (q : List PortRequest) :
    highPageRule k i v (s.setPort q) = (highPageRule k i v s).setPort q := by
  have h : splitOn (s.setPort q) = splitOn s := rfl
  unfold highPageRule
  simp only [State.setPort_cfg, h]
  split_ifs <;> rfl

theorem wideRule_setPort (v : Bool) (s : State) (q : List PortRequest) :
    wideRule v (s.setPort q) = (wideRule v s).setPort q := by
  unfold wideRule
  cases h : s.cfg.wideModeAllowed <;> simp only [State.setPort_cfg, h, Bool.false_eq_true, if_false, if_true] <;> rfl

theorem whenRunning_setPort {s : State} {q : List PortRequest} {k k' : StepOutcome} (h : k' = withPort q k) :
    whenRunning (s.setPort q) k' = withPort q (whenRunning s k) := by
  unfold whenRunning
  simp only [State.setPort_phase, h]
  split_ifs <;> rfl

theorem beforeReset_setPort {s : State} {q : List PortRequest} {k k' : StepOutcome} (h : k' = withPort q k) :
    beforeReset (s.setPort q) k' = withPort q (beforeReset s k) := by
  unfold beforeReset
  simp only [State.setPort_phase, h]
  split_ifs <;> rfl

theorem execRd_setPort (x : Word) (s : State) (q : List PortRequest) :
    execRd x (s.setPort q) = withPort q (execRd x s) := by
  refine whenRunning_setPort ?_
  rw [busDecode_congr (s := s) (t := s.setPort q) rfl rfl rfl rfl rfl rfl]
  rcases busDecode s x with r | (_ | ref)
  · rfl
  · rfl
  · dsimp only
    rw [State.memRead_eq, State.memRead_eq, State.storeByte_setPort, State.storeSize_congr (t := s.setPort q) (s := s) rfl rfl]
    split_ifs <;> rfl

theorem execWr_setPort (x : Word) (v : Byte) (s : State) (q : List PortRequest) :
    execWr x v (s.setPort q) = withPort q (execWr x v s) := by
  refine whenRunning_setPort ?_
  rw [busDecode_congr (s := s) (t := s.setPort q) rfl rfl rfl rfl rfl rfl]
  rcases busDecode s x with r | (_ | ref)
  · rfl
  · rfl
  · dsimp only
    rw [State.memWrite_eq, State.memWrite_eq, State.putByte_setPort, State.storeSize_congr (t := s.setPort q) (s := s) rfl rfl]
    split_ifs <;> rfl

theorem execReset_setPort (c : ConfigRecord) (s : State) (q : List PortRequest) :
    execReset c (s.setPort q) = withPort q (execReset c s) := by
  have h : keepsSizes (s.setPort q) c = keepsSizes s c := rfl
  unfold execReset
  simp only [State.setPort_phase, h]
  split_ifs <;> rfl

theorem savedImage_setPort (s : State) (q : List PortRequest) : savedImage (s.setPort q) = savedImage s := by
  have h : ∀ r n, (s.setPort q).storeBytes r n = s.storeBytes r n := fun r n =>
    List.map_congr_left fun o _ => State.storeByte_setPort s q r o
  by_cases hp : s.phase = .constructed
  · rw [savedImage, savedImage, if_pos (by exact hp), if_pos hp, h, h]
    rfl
  · rw [savedImage, savedImage, if_neg (by exact hp), if_neg hp]
    rfl

theorem storeImage_setPort (s : State) (q : List PortRequest) (m f : Memory) :
    beforeReset (s.setPort q) (.next ((s.setPort q).withImage m f)) =
      withPort q (beforeReset s (.next (s.withImage m f))) := beforeReset_setPort rfl

theorem execLoad_setPort (img : Image) (s : State) (q : List PortRequest) :
    execLoad img (s.setPort q) = withPort q (execLoad img s) := by
  unfold execLoad
  rw [State.setPort_cfg]
  exact storeImage_setPort s q _ _

theorem execSave_setPort (s : State) (q : List PortRequest) : execSave (s.setPort q) = withPort q (execSave s) := by
  rw [execSave, savedImage_setPort]
  rfl

/-- NO REQUEST SEES WHAT IS PENDING BEHIND IT (R48): with other requests pending, its outcome is the same. -/
theorem exec_setPort (i : Instr) (s : State) (q : List PortRequest) :
    exec i (s.setPort q) = withPort q (exec i s) := by
  cases i with
  | rd x => exact execRd_setPort x s q
  | wr x v => exact execWr_setPort x v s q
  | ctlSel a v => exact controlRequest_setPort (rule := selectRule v) (fun _ _ => rfl) a 0 s q
  | ctlPg1 a v => exact controlRequest_setPort (lowPageRule_setPort 1 v) a 1 s q
  | ctlPg0 a v => exact controlRequest_setPort (lowPageRule_setPort 0 v) a 2 s q
  | ctlPg2 a v => exact controlRequest_setPort (rule := midPageRule 2 v) (fun _ _ => rfl) a 3 s q
  | ctlPg3 a v => exact controlRequest_setPort (rule := midPageRule 3 v) (fun _ _ => rfl) a 4 s q
  | ctlPg4 a v => exact controlRequest_setPort (rule := midPageRule 4 v) (fun _ _ => rfl) a 5 s q
  | ctlPg5 a v => exact controlRequest_setPort (rule := midPageRule 5 v) (fun _ _ => rfl) a 6 s q
  | ctlPg6 a v => exact controlRequest_setPort (rule := midPageRule 6 v) (fun _ _ => rfl) a 7 s q
  | ctlPg7 a v => exact controlRequest_setPort (rule := midPageRule 7 v) (fun _ _ => rfl) a 8 s q
  | ctlPg8 a v => exact controlRequest_setPort (rule := midPageRule 8 v) (fun _ _ => rfl) a 9 s q
  | ctlPg9 a v => exact controlRequest_setPort (highPageRule_setPort 10 9 v) a 10 s q
  | ctlPg10 a v => exact controlRequest_setPort (highPageRule_setPort 11 10 v) a 11 s q
  | ctlPg11 a v => exact controlRequest_setPort (highPageRule_setPort 12 11 v) a 12 s q
  | ctlPg12 a v => exact controlRequest_setPort (highPageRule_setPort 13 12 v) a 13 s q
  | ctlRsv a v => exact controlRequest_setPort (rule := reservedRule) (fun _ _ => rfl) a 14 s q
  | ctlWide a v => exact controlRequest_setPort (wideRule_setPort v) a 15 s q
  | reset c => exact execReset_setPort c s q
  | hide b => exact whenRunning_setPort rfl
  | loadImage img => exact execLoad_setPort img s q
  | defaultImage => exact beforeReset_setPort rfl
  | saveImage => exact execSave_setPort s q

/-- A run of a host machine, one step unfolded. -/
theorem run_succ (M : Host.Core) (n : Nat) (u : M.State) :
    M.run (n + 1) u = match M.step u with
      | .next t => M.run n t
      | .fault f => .fault f
      | .refused r => .refused r := rfl

end Sys2Proof.Machine
end

