-- ==== Sys2Proof/Tests/Slice0.lean ====
section
/-! SUPPORT. The model's own tests: the checks of `wellFormed`, one decoded request for each instruction, single requests
from 95_test_vectors.md, and for each obligation with hypotheses inputs that meet all of them. Every expected result is
the spec's. -/

namespace Sys2Proof.Tests

open Sys2Proof Sys2Proof.Machine

/-! ### States -/

/-- The test record of 95_test_vectors.md, with its varying fields. -/
def conf (cap : CapacityClass) (exp : Bool) (split : SplitMode) (wideAllowed : Bool) : ConfigRecord :=
  { resetConfig with capacityClass := cap, expansionInstalled := exp, splitMode := split, wideModeAllowed := wideAllowed }

/-- A running state with zero stores. -/
def run (c : ConfigRecord) (page : Page) (selected wide hidden : Bool) : State :=
  { State.reset with cfg := c, page := page, selected := selected, wideModeActive := wide, hideSwitch := hidden }

/-- 2 MiB, split off, wide mode allowed (vectors CT). -/
def ct (page : Page) (wide : Bool) : State := run (conf .mib2 false .disabled true) page false wide false

/-- 2 MiB, dual-address split mode, wide mode not allowed (vectors SD). -/
def sd (page : Page) : State := run (conf .mib2 false .dualAddress false) page false false false

/-- 4 MiB, bit-selected split mode (vectors SB). -/
def sb (page : Page) (wide : Bool) : State := run (conf .mib4 false .bitSelected true) page false wide false

/-- 2 MiB with expansion, selected, plain, page 0x005 (vectors DC). -/
def dc : State := run (conf .mib2 true .disabled false) 0x005 true false false

/-- 2 MiB, wide, not selected (vectors DW). -/
def dw (page : Page) : State := run (conf .mib2 false .disabled true) page false true false

/-- As `dc`, with `genmodFix` and no predicate (vectors GM). -/
def gm (selected wide hidden : Bool) : State :=
  { run (conf .mib2 true .disabled true) 0x005 selected wide hidden with
    cfg := { conf .mib2 true .disabled true with genmodFix := true } }

/-- The windows of 95_test_vectors.md given as predicates. -/
def gmDefaults : State :=
  { gm true true false with windows :=
      { defaultWindows with genmodFw := some [⟨0x4000, 0x5FFF⟩], genmodCart := some [⟨0x6000, 0x7FFF⟩] } }

/-- The block right after construction (R172), the free values of its registers replaced by known ones. -/
def fresh (c : ConfigRecord) : State := { run c 0x155 true false false with phase := .constructed }

/-- The block with an image ready. -/
def ready (c : ConfigRecord) : State := { run c 0x155 true false false with phase := .imageReady }

/-- The request completes and the next state meets `p`. -/
def ends (o : StepOutcome) (p : State → Bool) : Bool :=
  match o with
  | .next t => p t
  | .fault _ => false
  | .refused _ => false

/-- The request is refused with this reason. -/
def refuses (o : StepOutcome) (r : Refusal) : Bool :=
  match o with
  | .next _ => false
  | .fault _ => false
  | .refused q => decide (q = r)

/-- The decoder's answer is this place. -/
def reaches (s : State) (x : Word) (r : Region) (o : Nat) : Bool :=
  match busDecode s x with
  | .ok (some ref) => decide (ref = ⟨r, o⟩)
  | .ok none => false
  | .error _ => false

/-- The decoder answers no access. -/
def silent (s : State) (x : Word) : Bool :=
  match busDecode s x with
  | .ok (some _) => false
  | .ok none => true
  | .error _ => false

/-- The raw request decodes to this instruction. -/
def reads (r : PortRequest) (i : Instr) : Bool :=
  match decode r with
  | .ok j => decide (j = i)
  | .error _ => false

/-- The raw request is rejected with this error. -/
def rejects (r : PortRequest) (e : DecodeError) : Bool :=
  match decode r with
  | .ok _ => false
  | .error d => decide (d = e)

/-! ### Well-formedness: an ill-formed image for each check (R66, R131) -/

theorem test_wf_good : wellFormed (.loadImage ⟨8192, [(0, 0x5A), (8191, 0xFF)]⟩) = true := by decide
theorem test_wf_not_rising : wellFormed (.loadImage ⟨8192, [(5, 0x01), (5, 0x02)]⟩) = false ∧
    rejects (.persistLoad ⟨8192, [(5, 0x01), (5, 0x02)]⟩) .imageNotRising = true := by decide
theorem test_wf_lists_zero : wellFormed (.loadImage ⟨8192, [(5, 0x00)]⟩) = false ∧
    rejects (.persistLoad ⟨8192, [(5, 0x00)]⟩) .imageListsZero = true := by decide
theorem test_wf_out_of_range : wellFormed (.loadImage ⟨8192, [(8192, 0x01)]⟩) = false ∧
    rejects (.persistLoad ⟨8192, [(8192, 0x01)]⟩) .imageOutOfRange = true := by decide
/-- R66: `MAX_CAPACITY + 8192` = 16785408 bytes are the most that a `LOAD` takes. -/
theorem test_wf_too_long : wellFormed (.loadImage ⟨16785408, []⟩) = true ∧
    wellFormed (.loadImage ⟨16785409, []⟩) = false ∧ rejects (.persistLoad ⟨16785409, []⟩) .imageTooLong = true := by decide

/-! ### Decoding: a request of each row, its fields laid out by notes/assumptions/9 -/

theorem test_decode_rd : reads (.fields .read [0xFF, 0x5F]) (.rd 0x5FFF) = true := by decide
theorem test_decode_wr : reads (.fields .write [0x00, 0x70, 0xCD]) (.wr 0x7000 0xCD) = true := by decide
/-- Programs P1 and P3: `CTL` with address 0x1200 or 0x1400, the bit index in bits 3..0 of the first byte. -/
theorem test_decode_ctlSel : reads (.fields .controlBitWrite [0b00000000, 0b00100000, 0b00010001]) (.ctlSel 0x1200 true) = true := by decide
theorem test_decode_ctlPg1 : reads (.fields .controlBitWrite [0b00000001, 0b00100000, 0b00010001]) (.ctlPg1 0x1200 true) = true := by decide
theorem test_decode_ctlPg0 : reads (.fields .controlBitWrite [0b00000010, 0b00100000, 0b00000001]) (.ctlPg0 0x1200 false) = true := by decide
theorem test_decode_ctlPg2 : reads (.fields .controlBitWrite [0b00000011, 0b01000000, 0b00010001]) (.ctlPg2 0x1400 true) = true := by decide
theorem test_decode_ctlPg3 : reads (.fields .controlBitWrite [0b00000100, 0b00100000, 0b00010001]) (.ctlPg3 0x1200 true) = true := by decide
theorem test_decode_ctlPg4 : reads (.fields .controlBitWrite [0b00000101, 0b00100000, 0b00010001]) (.ctlPg4 0x1200 true) = true := by decide
theorem test_decode_ctlPg5 : reads (.fields .controlBitWrite [0b00000110, 0b00100000, 0b00010001]) (.ctlPg5 0x1200 true) = true := by decide
theorem test_decode_ctlPg6 : reads (.fields .controlBitWrite [0b00000111, 0b00100000, 0b00010001]) (.ctlPg6 0x1200 true) = true := by decide
theorem test_decode_ctlPg7 : reads (.fields .controlBitWrite [0b00001000, 0b00100000, 0b00000001]) (.ctlPg7 0x1200 false) = true := by decide
theorem test_decode_ctlPg8 : reads (.fields .controlBitWrite [0b00001001, 0b00100000, 0b00010001]) (.ctlPg8 0x1200 true) = true := by decide
theorem test_decode_ctlPg9 : reads (.fields .controlBitWrite [0b00001010, 0b00100000, 0b00010001]) (.ctlPg9 0x1200 true) = true := by decide
theorem test_decode_ctlPg10 : reads (.fields .controlBitWrite [0b11111011, 0b11111111, 0b00011111]) (.ctlPg10 0xFFFF true) = true := by decide
theorem test_decode_ctlPg11 : reads (.fields .controlBitWrite [0b00001100, 0b00000000, 0b00010000]) (.ctlPg11 0x0000 true) = true := by decide
theorem test_decode_ctlPg12 : reads (.fields .controlBitWrite [0b00011101, 0b00000000, 0b00000000]) (.ctlPg12 0x0001 false) = true := by decide
theorem test_decode_ctlRsv : reads (.fields .controlBitWrite [0b00001110, 0b01000000, 0b00000001]) (.ctlRsv 0x1400 false) = true := by decide
theorem test_decode_ctlWide : reads (.fields .controlBitWrite [0b00001111, 0b00100000, 0b00010001]) (.ctlWide 0x1200 true) = true := by decide
/-- The record of program P5: 4 MiB (code 01), no expansion, bit-selected (code 10), wide mode allowed. -/
theorem test_decode_reset : reads (.fields .reset [0b00110001, 0x00, 0x12, 0x00, 0x14]) (.reset (conf .mib4 false .bitSelected true)) = true := by decide
theorem test_decode_hide : reads (.fields .setHideSwitch [0b00000001]) (.hide true) = true := by decide
theorem test_decode_load : reads (.persistLoad ⟨8192, [(0, 0x41)]⟩) (.loadImage ⟨8192, [(0, 0x41)]⟩) = true := by decide
theorem test_decode_default : reads (.fields .persistDefault []) .defaultImage = true := by decide
theorem test_decode_save : reads (.fields .persistSave []) .saveImage = true := by decide
theorem test_decode_rejects : rejects (.fields .read [0x00]) .wrongLength = true ∧
    rejects (.fields .controlBitWrite [0x00, 0x00, 0b00100000]) .paddingNotZero = true ∧
    rejects (.fields .setHideSwitch [0x02]) .paddingNotZero = true ∧
    rejects (.fields .reset [0b00011000, 0, 0, 0, 0]) .splitModeCode = true := by decide
/-- The words of the opcode table: `match` over `bitIndex[3:0]`, everything else zero. -/
theorem test_table_words : decodeTableWord 4 0 = some (.ctlSel 0 false) ∧ decodeTableWord 8 11 = some (.ctlPg10 0 false) ∧
    decodeTableWord 24 15 = some (.ctlWide 0 false) := by decide
theorem test_table_word_steps : ends (step (State.reset.withFetchWord 8 15)) (fun t => decide (t = State.reset)) = true := by decide

/-! ### The address decoder: vectors DC, DW and the largest capacity -/

theorem test_dc_none : [0x0000, 0x1FFF, 0x6000, 0x7FFF, 0x8000, 0x9FFF].all (silent dc) = true := by decide
theorem test_dc_expansion : reaches dc 0x2000 .expansion 0 = true ∧ reaches dc 0x3FFF .expansion 0x1FFF = true ∧
    reaches dc 0xA123 .expansion 0x2123 = true ∧ reaches dc 0xBFFF .expansion 0x3FFF = true ∧
    reaches dc 0xC000 .expansion 0x4000 = true ∧ reaches dc 0xFFFF .expansion 0x7FFF = true := by decide
theorem test_dc_window : reaches dc 0x4000 .firmware 0 = true ∧ reaches dc 0x5000 .firmware 0x1000 = true ∧
    reaches dc 0x57FF .firmware 0x17FF = true ∧ reaches dc 0x5800 .main 0x2800 = true ∧
    reaches dc 0x5FFF .main 0x2FFF = true := by decide
theorem test_dw : reaches (dw 0x3FF) 0x4000 .firmware 0 = true ∧ reaches (dw 0x3FF) 0x5800 .firmware 0x1800 = true ∧
    reaches (dw 0x3FF) 0x6000 .main 0x1FE000 = true ∧ reaches (dw 0x3FF) 0x7FFF .main 0x1FFFFF = true ∧
    silent (dw 0x3FF) 0x8000 = true ∧ reaches (dw 0x006) 0x67FF .main 0x27FF = true ∧
    reaches (dw 0x006) 0x6800 .main 0x2800 = true ∧ silent (dw 0x000) 0x2000 = true := by decide
theorem test_largest : reaches (run (conf .mib16 false .disabled true) 0x1FFF true false false) 0x5FFF .main 0xFFFFFF = true ∧
    reaches (run (conf .mib16 false .disabled true) 0x1FFF true true false) 0x7FFF .main 0xFFFFFF = true := by decide

/-! ### One request at a time -/

/-- GM-1, and DC-10: an unselected window leaves the bus undriven. -/
theorem test_rd_refused : refuses (exec (.rd 0x4000) (gm true false false)) .genmodWindowUnknown = true := by decide
theorem test_rd_undriven : ends (exec (.rd 0x6000) dc) (fun t => decide (t.result = .byte none)) = true := by decide
/-- L1-2: wide mode, page 0x006, `WR 0x7000, 0xCD` stores at `MainStore[0x3000]`. -/
theorem test_wr_wide : ends (exec (.wr 0x7000 0xCD) (dw 0x006)) (fun t => decide (t.mainStore = [(0x3000, 0xCD)])) = true := by decide
/-- GM-4: a hidden write is dropped, not refused. -/
theorem test_wr_hidden : ends (exec (.wr 0x4000 1) (gm true false true)) (fun t => decide (t.firmwareStore = [])) = true := by decide
/-- CT-1, SB-4. -/
theorem test_ctlSel : ends (exec (.ctlSel 0x1200 true) (ct 0 false)) (fun t => t.selected && t.page == 0) = true := by decide
theorem test_ctlSel_split : ends (exec (.ctlSel 0x1200 true) (sb 0x400 false)) (fun t => t.selected && t.page == 0) = true := by decide
/-- CT-3, CT-16. -/
theorem test_ctlPg1 : ends (exec (.ctlPg1 0x1200 true) (ct 0 false)) (fun t => t.page == 0x002) = true := by decide
theorem test_ctlPg1_wide : ends (exec (.ctlPg1 0x1200 true) (ct 0 true)) (fun t => t.page == 0) = true := by decide
/-- CT-4, SB-9. -/
theorem test_ctlPg0 : ends (exec (.ctlPg0 0x1200 true) (ct 0 false)) (fun t => t.page == 0x001) = true := by decide
theorem test_ctlPg0_wide : ends (exec (.ctlPg0 0x1200 false) (sb 0x401 true)) (fun t => t.page == 0x001) = true := by decide
/-- CT-18, SD-1. -/
theorem test_ctlPg2_wide : ends (exec (.ctlPg2 0x1200 true) (ct 0 true)) (fun t => t.page == 0x004) = true := by decide
theorem test_ctlPg2_split : ends (exec (.ctlPg2 0x1400 true) (sd 0)) (fun t => t.page == 0x204) = true := by decide
/-- CT-6, SD-2. -/
theorem test_ctlPg3 : ends (exec (.ctlPg3 0x1200 true) (ct 0 false)) (fun t => t.page == 0x008) = true := by decide
theorem test_ctlPg3_split : ends (exec (.ctlPg3 0x1200 true) (sd 0x204)) (fun t => t.page == 0x00C) = true := by decide
/-- CT-7, CT-8. -/
theorem test_ctlPg4 : ends (exec (.ctlPg4 0x1200 true) (ct 0 false)) (fun t => t.page == 0x010) = true := by decide
theorem test_ctlPg5 : ends (exec (.ctlPg5 0x1200 true) (ct 0 false)) (fun t => t.page == 0x020) = true := by decide
/-- SB-2, SB-1. -/
theorem test_ctlPg6_split : ends (exec (.ctlPg6 0x1200 true) (sb 0x400 false)) (fun t => t.page == 0x040) = true := by decide
theorem test_ctlPg7_split : ends (exec (.ctlPg7 0x1200 false) (sb 0 false)) (fun t => t.page == 0x400) = true := by decide
/-- CT-10, CT-24. -/
theorem test_ctlPg7 : ends (exec (.ctlPg7 0x1200 true) (ct 0 false)) (fun t => t.page == 0x080) = true := by decide
theorem test_ctlPg8 : ends (exec (.ctlPg8 0x1200 false) (ct 0x3FF false)) (fun t => t.page == 0x2FF) = true := by decide
/-- CT-12, SD-3. -/
theorem test_ctlPg9 : ends (exec (.ctlPg9 0x1200 true) (ct 0 false)) (fun t => t.page == 0x200) = true := by decide
theorem test_ctlPg9_boundary : ends (exec (.ctlPg9 0x1200 true) (sd 0)) (fun t => t.page == 0) = true := by decide
/-- CT-13, CT-27. -/
theorem test_ctlPg10_above : ends (exec (.ctlPg10 0x1200 true) (ct 0 false)) (fun t => t.page == 0) = true := by decide
theorem test_ctlPg10 : ends (exec (.ctlPg10 0x1200 true) (run (conf .mib4 false .disabled true) 0 false false false))
    (fun t => t.page == 0x400) = true := by decide
/-- CT-29, SB-10. -/
theorem test_ctlPg11 : ends (exec (.ctlPg11 0x1200 true) (run (conf .mib8 false .disabled true) 0 false false false))
    (fun t => t.page == 0x800) = true := by decide
theorem test_ctlPg11_split : ends (exec (.ctlPg11 0x1200 true) (run (conf .mib16 false .bitSelected true) 0 false false false))
    (fun t => t.page == 0x1800) = true := by decide
/-- CT-30, CT-14. -/
theorem test_ctlPg12 : ends (exec (.ctlPg12 0x1200 true) (run (conf .mib16 false .disabled true) 0 false false false))
    (fun t => t.page == 0x1000) = true := by decide
theorem test_ctlPg12_above : ends (exec (.ctlPg12 0x1200 true) (ct 0 false)) (fun t => t.page == 0) = true := by decide
/-- CT-15, SD-5. -/
theorem test_ctlRsv : ends (exec (.ctlRsv 0x1200 true) (ct 0 false)) (fun t => decide (t = ct 0 false)) = true := by decide
theorem test_ctlRsv_split : ends (exec (.ctlRsv 0x1400 true) (sd 0)) (fun t => t.page == 0x200) = true := by decide
/-- CT-19, SD-7. -/
theorem test_ctlWide : ends (exec (.ctlWide 0x1200 true) (ct 0 false)) (fun t => t.wideModeActive) = true := by decide
theorem test_ctlWide_notAllowed : ends (exec (.ctlWide 0x1400 true) (sd 0)) (fun t => !t.wideModeActive && t.page == 0x200) = true := by decide
/-- RS-12, RS-4. -/
theorem test_reset : ends (exec (.reset (conf .mib2 false .disabled true)) (run (conf .mib2 false .disabled true) 0x3FF true true true))
    (fun t => t.page == 0 && !t.selected && !t.wideModeActive && !t.hideSwitch) = true := by decide
theorem test_reset_refused : refuses (exec (.reset (conf .mib4 false .disabled true)) (ct 0 false)) .sessionConfigChanged = true := by decide
/-- HS-4, RS-2 with `HIDE`. -/
theorem test_hide : ends (exec (.hide true) dc) (fun t => t.hideSwitch && t.page == 0x005 && t.selected) = true := by decide
theorem test_hide_refused : refuses (exec (.hide true) (ready resetConfig)) .notReset = true := by decide
/-- PS-4: of 10000 bytes, byte 1807 is the last of `MainStore` and byte 1808 the first of `FirmwareStore`. -/
theorem test_load : ends (exec (.loadImage ⟨10000, [(1807, 0x11), (1808, 0x22), (9999, 0x33)]⟩) (fresh resetConfig))
    (fun t => decide (t.mainStore = [(1807, 0x11)] ∧ t.firmwareStore = [(0, 0x22), (8191, 0x33)])) = true := by decide
/-- PS-2: 8191 bytes are too short. -/
theorem test_load_short : ends (exec (.loadImage ⟨8191, [(0, 0xFF), (8190, 0xFF)]⟩) (fresh resetConfig))
    (fun t => decide (t.mainStore = [] ∧ t.firmwareStore = [])) = true := by decide
/-- PS-9, RS-7. -/
theorem test_default : ends (exec .defaultImage { fresh resetConfig with mainStore := [(7, 1)] })
    (fun t => decide (t.mainStore = [] ∧ t.phase = .imageReady)) = true := by decide
theorem test_default_refused : refuses (exec .defaultImage dc) .persistenceAfterReset = true := by decide
/-- SV-1: of 2105344 bytes, byte 0x200000 is `FirmwareStore[0]`. -/
theorem test_save : ends (exec .saveImage { dc with firmwareStore := [(0, 0x5A)] })
    (fun t => decide (t.result = .image ⟨2105344, [(0x200000, 0x5A)]⟩)) = true := by decide

/-! ### Witnesses: inputs that meet all hypotheses of an obligation, each clause at a boundary -/

theorem witness_DecodeEncodeRoundTrip : wellFormed (.loadImage ⟨maxImageBytes, [(maxImageBytes - 1, 0x01)]⟩) = true := by decide
theorem witness_EncodeDecodeRoundTrip :
    decode (.fields .controlBitWrite [0xFF, 0xFF, 0x1F]) = .ok (.ctlWide 0xFFFF true) := by rfl
theorem witness_ControlTupleIsCut : (31#8).toNat < 32 ∧ 32 ≤ (32#8).toNat := by decide
theorem witness_StepRunsDecodedRequest :
    ({ dc with port := [.fields .read [0x00, 0x58]] } : State).port = .fields .read [0x00, 0x58] :: [] ∧
    decode (.fields .read [0x00, 0x58]) = .ok (.rd 0x5800) := ⟨rfl, rfl⟩
theorem witness_StepWithoutRequest : State.reset.port = [] ∧
    ({ dc with port := [.fields .read []] } : State).port = .fields .read [] :: [] ∧
    decode (.fields .read []) = .error .wrongLength := ⟨rfl, rfl, rfl⟩
theorem witness_PortRunIsRequestRun : (∀ i ∈ [Instr.ctlSel 0x1200 true, .rd 0x5800], wellFormed i = true) ∧
    ({ dc with port := [encode (.ctlSel 0x1200 true), encode (.rd 0x5800), encode .saveImage] } : State).port =
      [Instr.ctlSel 0x1200 true, .rd 0x5800].map encode ++ [encode .saveImage] := ⟨by decide, rfl⟩
theorem witness_ConstructionMeetsInv : ExpansionOffsetsFit defaultWindows ∧ defaultWindows.exp3.off.toNat = 0x6000 := by decide
/-- The three clauses of `ResetRequest`. -/
theorem witness_ResetRequest : (fresh resetConfig).phase = .constructed ∧
    ((ready resetConfig).phase ≠ .constructed ∧ (conf .mib2 true .disabled false).expansionInstalled ≠ (ready resetConfig).cfg.expansionInstalled) ∧
    (ready resetConfig).phase ≠ .constructed ∧ (conf .mib2 false .bitSelected true).capacityClass = (ready resetConfig).cfg.capacityClass ∧
      (conf .mib2 false .bitSelected true).expansionInstalled = (ready resetConfig).cfg.expansionInstalled := by decide
theorem witness_RefusedBeforeReset : (fresh resetConfig).phase ≠ .running ∧ (ready resetConfig).phase ≠ .running ∧
    (∃ x, Instr.rd 0x4000 = .rd x) ∧ (∃ x v, Instr.wr 0x4000 1 = .wr x v) ∧
    (controlTuple (.ctlRsv 0x1200 true)).isSome = true ∧ ∃ b, Instr.hide true = .hide b :=
  ⟨by decide, by decide, ⟨_, rfl⟩, ⟨_, _, rfl⟩, rfl, _, rfl⟩
theorem witness_PersistenceAfterReset : State.reset.phase = .running := rfl
/-- One request for each of the five reasons (GM-1, RS-7, RS-4, RS-2, RS-1). -/
theorem witness_RefusalsAreTheSpecsSet : exec (.rd 0x4000) (gm true false false) = .refused .genmodWindowUnknown ∧
    exec .defaultImage dc = .refused .persistenceAfterReset ∧
    exec (.reset (conf .mib4 true .disabled false)) dc = .refused .sessionConfigChanged ∧
    exec (.rd 0x4000) (ready resetConfig) = .refused .notReset ∧
    exec (.reset resetConfig) (fresh resetConfig) = .refused .noImage := ⟨rfl, rfl, rfl, rfl, rfl⟩
theorem witness_DefaultAddressMap : dc.windows = defaultWindows ∧ dc.cfg.genmodFix = false := by decide
/-- Each clause: no `genmodFix` at both ends of a window that starts at another base than the default, and `genmodFix`
with the predicates given and absent. -/
theorem witness_WindowPredicates : dc.cfg.genmodFix = false ∧
    inFw { dc with windows := { defaultWindows with fwBase := 0x8000 } } 0x8000 = .ok true ∧
    inFw { dc with windows := { defaultWindows with fwBase := 0x8000 } } 0x9FFF = .ok true ∧
    inFw { dc with windows := { defaultWindows with fwBase := 0x8000 } } 0x4000 = .ok false ∧
    (gm true false false).cfg.genmodFix = true ∧ (gm true false false).windows.genmodFw = none ∧
    (gm true false false).windows.genmodCart = none ∧ gmDefaults.cfg.genmodFix = true ∧
    gmDefaults.windows.genmodFw = some [⟨0x4000, 0x5FFF⟩] ∧ gmDefaults.windows.genmodCart = some [⟨0x6000, 0x7FFF⟩] ∧
    inCart gmDefaults 0x7FFF = .ok true ∧ inCart gmDefaults 0x8000 = .ok false :=
  ⟨rfl, rfl, rfl, rfl, rfl, rfl, rfl, rfl, rfl, rfl, rfl, rfl⟩
/-- Each of the four sub-windows, an offset of none, and a card without expansion. -/
theorem witness_ExpansionBeforeAllElse : dc.cfg.expansionInstalled = true ∧
    (0x2000#16 &&& 0xE000#16) = dc.windows.exp0.base ∧ (0xBFFF#16 &&& 0xE000#16) = dc.windows.exp1.base ∧
    (0xC000#16 &&& 0xE000#16) = dc.windows.exp2.base ∧ (0xFFFF#16 &&& 0xE000#16) = dc.windows.exp3.base ∧
    (0x1FFF#16 &&& 0xE000#16) ∉ [dc.windows.exp0.base, dc.windows.exp1.base, dc.windows.exp2.base, dc.windows.exp3.base] ∧
    (ct 0 false).cfg.expansionInstalled = false := by decide
theorem witness_SilentModes : (gm true true true).phase = .running ∧ expansionHit (gm true true true) 0x4000 = none ∧
    (gm true true true).hideSwitch = true ∧ (gm false false false).phase = .running ∧
    expansionHit (gm false false false) 0x5FFF = none ∧ (gm false false false).selected = false ∧
    (gm false false false).wideModeActive = false := by decide
theorem witness_PlainPagedDecode : expansionHit dc 0x57FF = none ∧ expansionHit dc 0x5800 = none ∧ expansionHit dc 0x6000 = none ∧
    dc.hideSwitch = false ∧ dc.selected = true ∧ dc.wideModeActive = false ∧
    inFw dc 0x57FF = .ok true ∧ inFw dc 0x5800 = .ok true ∧ inFw dc 0x6000 = .ok false :=
  ⟨rfl, rfl, rfl, rfl, rfl, rfl, rfl, rfl, rfl⟩
theorem witness_WideDecode : expansionHit (dw 0x3FF) 0x5FFF = none ∧ expansionHit (dw 0x3FF) 0x7FFF = none ∧
    expansionHit (dw 0x3FF) 0x8000 = none ∧ (dw 0x3FF).hideSwitch = false ∧ (dw 0x3FF).wideModeActive = true ∧
    inFw (dw 0x3FF) 0x5FFF = .ok true ∧ (inFw (dw 0x3FF) 0x7FFF = .ok false ∧ inCart (dw 0x3FF) 0x7FFF = .ok true) ∧
    inFw (dw 0x3FF) 0x8000 = .ok false ∧ inCart (dw 0x3FF) 0x8000 = .ok false :=
  ⟨rfl, rfl, rfl, rfl, rfl, rfl, ⟨rfl, rfl⟩, rfl, rfl⟩
/-- GM-1 meets `asked`, GM-3 does not; and only the cartridge predicate is missing. -/
theorem witness_GenmodRefusalExact : (gm true false false).phase = .running ∧
    ((gm true false false).cfg.genmodFix = true ∧ expansionHit (gm true false false) 0x4000 = none ∧
      (gm true false false).hideSwitch = false ∧ (gm true false false).selected = true ∧
      (gm true false false).windows.genmodFw = none) ∧
    expansionHit (gm true false false) 0x2000 ≠ none ∧ offsetIn [⟨0x4000, 0x5FFF⟩] 0x6000 = false := by decide
theorem witness_GenmodAtDefaultsChangesNothing : gmDefaults.cfg.genmodFix = true ∧
    gmDefaults.windows = { defaultWindows with genmodFw := some [⟨0x4000#16, 0x5FFF#16⟩], genmodCart := some [⟨0x6000#16, 0x7FFF#16⟩] } ∧
    (run (conf .mib2 true .disabled true) 0x005 true true false).windows = defaultWindows ∧
    (run (conf .mib2 true .disabled true) 0x005 true true false).cfg = { gmDefaults.cfg with genmodFix := false } ∧
    (run (conf .mib2 true .disabled true) 0x005 true true false).page = gmDefaults.page ∧
    (run (conf .mib2 true .disabled true) 0x005 true true false).selected = gmDefaults.selected ∧
    (run (conf .mib2 true .disabled true) 0x005 true true false).wideModeActive = gmDefaults.wideModeActive ∧
    (run (conf .mib2 true .disabled true) 0x005 true true false).hideSwitch = gmDefaults.hideSwitch := by decide
/-- The largest offset of each store. -/
theorem witness_DecodedOffsetsInRange : (dw 0x3FF).page.toNat < 2 ^ pageWidth (dw 0x3FF).cfg.capacityClass ∧
    ExpansionOffsetsFit (dw 0x3FF).windows ∧ busDecode (dw 0x3FF) 0x7FFF = .ok (some ⟨.main, 0x1FFFFF⟩) ∧
    busDecode (dw 0x3FF) 0x5FFF = .ok (some ⟨.firmware, 0x1FFF⟩) ∧
    dc.page.toNat < 2 ^ pageWidth dc.cfg.capacityClass ∧ ExpansionOffsetsFit dc.windows ∧
    busDecode dc 0xFFFF = .ok (some ⟨.expansion, 0x7FFF⟩) :=
  ⟨by decide, by decide, rfl, rfl, by decide, by decide, rfl⟩
theorem witness_ReadReturnsDecodedByte : dc.phase = .running ∧ busDecode dc 0x1FFF = .ok none ∧
    (busDecode dc 0x5FFF = .ok (some ⟨.main, 0x2FFF⟩) ∧ 0x2FFF < dc.storeSize .main) ∧
    (gm true false false).phase = .running ∧ busDecode (gm true false false) 0x0000 = .error .genmodWindowUnknown :=
  ⟨rfl, rfl, ⟨rfl, by decide⟩, rfl, rfl⟩
theorem witness_WriteStoresOneByte : dc.phase = .running ∧ busDecode dc 0x9FFF = .ok none ∧
    (busDecode dc 0x57FF = .ok (some ⟨.firmware, 0x17FF⟩) ∧ 0x17FF < dc.storeSize .firmware) ∧
    (busDecode dc 0xFFFF = .ok (some ⟨.expansion, 0x7FFF⟩) ∧ 0x7FFF < dc.storeSize .expansion) ∧
    (gm true true false).phase = .running ∧ busDecode (gm true true false) 0x6000 = .error .genmodWindowUnknown :=
  ⟨rfl, rfl, ⟨rfl, by decide⟩, ⟨rfl, by decide⟩, rfl, rfl⟩
theorem witness_BusRequestsComplete : (Inv (dw 0x3FF) ∧ (dw 0x3FF).phase = .running ∧ WindowsKnown (dw 0x3FF)) ∧
    Inv gmDefaults ∧ gmDefaults.phase = .running ∧ gmDefaults.cfg.genmodFix = true ∧ WindowsKnown gmDefaults := by decide
/-- With the default windows one offset of a state reaches a byte, so both offsets are that one. -/
theorem witness_WriteThenRead : exec (.wr 0x5800 0x11) dc = .next { dc with mainStore := [(0x2800, 0x11)] } ∧
    busDecode dc 0x5800 = .ok (some ⟨.main, 0x2800⟩) := ⟨rfl, rfl⟩
/-- L1-2: a byte written in wide mode, read through the overlay after wide mode has ended. -/
theorem witness_ReadBackAfterUntouchedRun :
    busDecode (run (conf .mib2 false .disabled true) 0x006 true true false) 0x7000 = .ok (some ⟨.main, 0x3000⟩) ∧
    exec (.wr 0x7000 0xCD) (run (conf .mib2 false .disabled true) 0x006 true true false) =
      .next { run (conf .mib2 false .disabled true) 0x006 true true false with mainStore := [(0x3000, 0xCD)] } ∧
    Untouched ⟨.main, 0x3000⟩ [.ctlWide 0x1200 false]
      { run (conf .mib2 false .disabled true) 0x006 true true false with mainStore := [(0x3000, 0xCD)] } ∧
    runRequests [.ctlWide 0x1200 false]
      { run (conf .mib2 false .disabled true) 0x006 true true false with mainStore := [(0x3000, 0xCD)] } =
      .next { run (conf .mib2 false .disabled true) 0x006 true false false with mainStore := [(0x3000, 0xCD)] } ∧
    (Region.main = .expansion → ∀ c, Instr.reset c ∉ [Instr.ctlWide 0x1200 false]) ∧
    busDecode { run (conf .mib2 false .disabled true) 0x006 true false false with mainStore := [(0x3000, 0xCD)] } 0x5800 =
      .ok (some ⟨.main, 0x3000⟩) :=
  ⟨rfl, rfl, ⟨(fun _ _ h => nomatch h), fun _ _ => trivial⟩, rfl, (fun h => nomatch h), rfl⟩
/-- Vector V-ALIAS: page 7, wide, 0x6C05, and page 5, plain, 0x5C05. -/
theorem witness_WideAndPlainAliases : (dw 0x007).wideModeActive = true ∧ (dw 0x007).hideSwitch = false ∧
    expansionHit (dw 0x007) 0x6C05 = none ∧ inFw (dw 0x007) 0x6C05 = .ok false ∧ inCart (dw 0x007) 0x6C05 = .ok true ∧
    dc.wideModeActive = false ∧ dc.selected = true ∧ dc.hideSwitch = false ∧ expansionHit dc 0x5C05 = none ∧
    inFw dc 0x5C05 = .ok true ∧ 6144 ≤ (0x5C05#16).toNat % 8192 :=
  ⟨rfl, rfl, rfl, rfl, rfl, rfl, rfl, rfl, rfl, rfl, by decide⟩
theorem witness_HiddenReadsLearnNothing : (gm true true true).hideSwitch = true ∧ (gm false false true).hideSwitch = true ∧
    (gm false false true).phase = (gm true true true).phase ∧
    (gm false false true).cfg.expansionInstalled = (gm true true true).cfg.expansionInstalled ∧
    (gm false false true).windows = (gm true true true).windows ∧
    ∀ o, (gm false false true).storeByte .expansion o = (gm true true true).storeByte .expansion o :=
  ⟨rfl, rfl, rfl, rfl, rfl, fun _ => rfl⟩
/-- The hypotheses of `ControlSelect`, `ControlCrossedPageBits`, `ControlMiddlePageBits`, `ControlHighPageBits`,
`ControlReserved` and `ControlWide`: at each base, with wide mode off and on, and in each split mode. -/
theorem witness_controlWrites : ((ct 0 false).phase = .running ∧ Qualifies (ct 0 false) 0x1200) ∧
    ((ct 0 true).phase = .running ∧ Qualifies (ct 0 true) 0x1400) ∧
    ((sd 0x204).phase = .running ∧ Qualifies (sd 0x204) 0x1400) ∧
    (sb 0x400 true).phase = .running ∧ Qualifies (sb 0x400 true) 0x1200 := by decide
/-- Control bits at, below and above the boundary, with split mode off and on (CT-12, CT-13, SD-3, CT-30). -/
theorem witness_ControlHighPageBits : (10 = 10 + exponent (ct 0 false).cfg.capacityClass ∧ (ct 0 false).cfg.splitMode = .disabled) ∧
    ¬11 ≤ 10 + exponent (ct 0 false).cfg.capacityClass ∧
    (10 = 10 + exponent (sd 0).cfg.capacityClass ∧ (sd 0).cfg.splitMode ≠ .disabled) ∧
    (10 < 10 + exponent (sb 0 false).cfg.capacityClass ∧ (sb 0 false).cfg.splitMode ≠ .disabled) ∧
    13 = 10 + exponent (conf .mib16 false .disabled true).capacityClass := by decide
/-- SD-6. -/
theorem witness_ControlOtherAddressIgnored : controlTuple (.ctlPg2 0x1300 true) = some (0x1300, 3, true) ∧
    (sd 0x200).phase = .running ∧ (0x1300 : Word) ≠ (sd 0x200).cfg.baseA ∧ (0x1300 : Word) ≠ (sd 0x200).cfg.baseB := by decide
/-- SD-1, SD-2, and bit-selected writes at the bit indices 7 and 8 (SB-2, SB-1). -/
theorem witness_DriveSelectStep : (controlTuple (.ctlPg2 0x1400 true) = some (0x1400, 3, true) ∧ (sd 0).phase = .running ∧
      Qualifies (sd 0) 0x1400 ∧ (sd 0).cfg.splitMode ≠ .disabled) ∧
    (controlTuple (.ctlPg3 0x1200 true) = some (0x1200, 4, true) ∧ Qualifies (sd 0x204) 0x1200) ∧
    (controlTuple (.ctlPg6 0x1200 true) = some (0x1200, 7, true) ∧ (sb 0x400 false).phase = .running ∧
      Qualifies (sb 0x400 false) 0x1200 ∧ (sb 0x400 false).cfg.splitMode ≠ .disabled) ∧
    controlTuple (.ctlPg7 0x1200 false) = some (0x1200, 8, false) ∧
    (sb 0x400 false).page.toNat < 2 ^ pageWidth (sb 0x400 false).cfg.capacityClass := by decide
theorem witness_BitSelectedDriveByLastIndex : (sb 0x400 false).phase = .running ∧
    (sb 0x400 false).cfg.splitMode = .bitSelected ∧ Qualifies (sb 0x400 false) 0x1200 := by decide
theorem witness_FrozenLowPageBits : (ct 0x003 true).phase = .running ∧ (ct 0x003 true).wideModeActive = true ∧
    ∀ w ∈ [(1#4, 0x1200#16, false), (2#4, 0x1200#16, false), (14#4, 0x1200#16, true)], w.1 ≠ 15#4 := ⟨rfl, rfl, by simp⟩
/-- CT-31: page 0x2A5, `SETPAGE 0x1200, 0x155`; and the largest page. -/
theorem witness_SetPageSetsThePage : (ct 0x2A5 false).phase = .running ∧ Qualifies (ct 0x2A5 false) 0x1200 ∧
    (ct 0x2A5 false).wideModeActive = false ∧ (ct 0x2A5 false).cfg.splitMode = .disabled ∧
    (ct 0x2A5 false).page.toNat < 2 ^ pageWidth (ct 0x2A5 false).cfg.capacityClass ∧
    (0x155#13).toNat < 2 ^ pageWidth (ct 0x2A5 false).cfg.capacityClass ∧
    (0x3FF#13).toNat < 2 ^ pageWidth (ct 0x2A5 false).cfg.capacityClass := by decide
theorem witness_RequestsIdempotent : (∃ x, Instr.rd 0x6000 = .rd x) ∧ exec (.rd 0x6000) dc = .next (dc.respond (.byte none)) ∧
    (∃ x v, Instr.wr 0x4000 0x5A = .wr x v) ∧ exec (.wr 0x4000 0x5A) dc = .next { dc with firmwareStore := [(0, 0x5A)] } ∧
    (controlTuple (.ctlPg2 0x1400 true)).isSome = true ∧ exec (.ctlPg2 0x1400 true) (sd 0) = .next (sd 0x204) :=
  ⟨⟨_, rfl⟩, rfl, ⟨_, _, rfl⟩, rfl, rfl, rfl⟩
theorem witness_HideRequest : dc.phase = .running := rfl
/-- SV-1. -/
theorem witness_SavedImageLoads : StoreWf { dc with firmwareStore := [(0, 0x5A)] } .main ∧
    StoreWf { dc with firmwareStore := [(0, 0x5A)] } .firmware ∧
    exec .saveImage { dc with firmwareStore := [(0, 0x5A)] } =
      .next { dc with firmwareStore := [(0, 0x5A)], result := .image ⟨2105344, [(0x200000, 0x5A)]⟩ } ∧
    ({ dc with firmwareStore := [(0, 0x5A)], result := .image ⟨2105344, [(0x200000, 0x5A)]⟩ } : State).result =
      .image ⟨2105344, [(0x200000, 0x5A)]⟩ := ⟨by decide, by decide, rfl, rfl⟩
/-- PS-2, PS-3, PS-4 and PS-7: images on both sides of the firmware tail's length and of the capacity. -/
theorem witness_LoadRestoresTheStores : (fresh resetConfig).phase ≠ .running ∧ (ready resetConfig).phase ≠ .running ∧
    (⟨8191, [(0, 0xFF)]⟩ : Image).length < 8192 ∧ ¬(⟨8192, [(0, 0xFF)]⟩ : Image).length < 8192 ∧
    (1807 < capacity .mib2 ∧ 1807 < (⟨10000, []⟩ : Image).length - 8192) ∧
    (1808 < capacity .mib2 ∧ ¬1808 < (⟨10000, []⟩ : Image).length - 8192) ∧
    capacity .mib2 < (⟨4202496, []⟩ : Image).length - 8192 := by decide
theorem witness_DefaultZeroesTheStores : (fresh resetConfig).phase ≠ .running ∧ (ready resetConfig).phase ≠ .running := by decide
/-- PS-6. -/
theorem witness_SaveLoadRoundTrip : exec .saveImage { dc with firmwareStore := [(0, 0x5A)] } =
      .next { dc with firmwareStore := [(0, 0x5A)], result := .image ⟨2105344, [(0x200000, 0x5A)]⟩ } ∧
    ({ dc with firmwareStore := [(0, 0x5A)], result := .image ⟨2105344, [(0x200000, 0x5A)]⟩ } : State).result =
      .image ⟨2105344, [(0x200000, 0x5A)]⟩ ∧
    (fresh (conf .mib2 false .dualAddress true)).phase ≠ .running ∧
    (fresh (conf .mib2 false .dualAddress true)).cfg.capacityClass = dc.cfg.capacityClass := ⟨rfl, rfl, by decide, rfl⟩
theorem witness_NextSessionKeepsTheStores : (conf .mib2 false .bitSelected true).capacityClass = dc.cfg.capacityClass ∧
    (conf .mib2 false .dualAddress false).capacityClass = (conf .mib2 false .bitSelected true).capacityClass ∧
    (conf .mib2 false .dualAddress false).expansionInstalled = (conf .mib2 false .bitSelected true).expansionInstalled := by decide
theorem witness_StepKeepsInv : Inv { dw 0x006 with port := [encode (.wr 0x7000 0xCD)] } ∧
    step { dw 0x006 with port := [encode (.wr 0x7000 0xCD)] } = .next { dw 0x006 with mainStore := [(0x3000, 0xCD)] } :=
  ⟨by decide, rfl⟩
theorem witness_StepNeverFaults : Inv { dc with port := [encode (.rd 0xFFFF)] } := by decide
/-- Each register changed by its own request. -/
theorem witness_RegistersHaveOnlyTheirWriters :
    (exec (.ctlPg2 0x1400 true) (sd 0) = .next (sd 0x204) ∧ (sd 0x204).page ≠ (sd 0).page) ∧
    (exec (.ctlSel 0x1200 true) (ct 0 false) = .next (run (conf .mib2 false .disabled true) 0 true false false) ∧
      (run (conf .mib2 false .disabled true) 0 true false false).selected ≠ (ct 0 false).selected) ∧
    (exec (.ctlWide 0x1200 true) (ct 0 false) = .next (ct 0 true) ∧ (ct 0 true).wideModeActive ≠ (ct 0 false).wideModeActive) ∧
    exec (.hide true) (ct 0 false) = .next (run (conf .mib2 false .disabled true) 0 false false true) ∧
      (run (conf .mib2 false .disabled true) 0 false false true).hideSwitch ≠ (ct 0 false).hideSwitch :=
  ⟨⟨rfl, by decide⟩, ⟨rfl, by decide⟩, ⟨rfl, by decide⟩, rfl, by decide⟩
theorem witness_StoresHaveOnlyTheirWriters : exec (.wr 0x4000 0x5A) dc = .next { dc with firmwareStore := [(0, 0x5A)] } ∧
    ({ dc with firmwareStore := [(0, 0x5A)] } : State).storeByte .firmware 0 ≠ dc.storeByte .firmware 0 := ⟨rfl, by decide⟩
theorem witness_SessionConstantsKept : exec (.reset (conf .mib2 false .dualAddress false)) (ready resetConfig) =
    .next (run (conf .mib2 false .dualAddress false) 0 false false false) := rfl
/-- A change of mode, and a place reached in each of the two modes that reach one. -/
theorem witness_AddressingModeRules : exec (.ctlWide 0x1200 true) (ct 0 false) = .next (ct 0 true) ∧
    addressingMode (ct 0 true) ≠ addressingMode (ct 0 false) ∧
    busDecode dc 0x5800 = .ok (some ⟨.main, 0x2800⟩) ∧ busDecode dc 0x57FF = .ok (some ⟨.firmware, 0x17FF⟩) ∧
    busDecode (dw 0x3FF) 0x7FFF = .ok (some ⟨.main, 0x1FFFFF⟩) ∧ Region.main ≠ .expansion := ⟨rfl, by decide, rfl, rfl, rfl, by decide⟩
/-- The hypothesis of no clause is left out: the invariant itself holds of a state with written stores. -/
theorem witness_Inv : Inv { dc with mainStore := [(0x2800, 0x11), (0x1FFFFF, 0x12)], expansionStore := [(0, 0), (0x7FFF, 0x31)] } := by decide

end Sys2Proof.Tests
end

section
/-! ### The quantities of a capacity class (R6, R96) -/

namespace Sys2Proof.Machine

/-- The drive-select mask is the top bit of a `W`-bit page (R6): shifting `0x200 = 1 << 9` by `e` shifts 1 by
`9 + e = W - 1`. -/
theorem dsMask_eq_one_shiftLeft (c : CapacityClass) : dsMask c = 1#13 <<< (pageWidth c - 1) := by
  have base : (0x0200#13 : Page) = 1#13 <<< 9 := rfl
  have top : pageWidth c - 1 = 9 + exponent c := by unfold pageWidth; omega
  rw [dsMask, base, top, BitVec.shiftLeft_add]

/-- Settles O32: the four classes are evaluated, and the relations between the quantities hold for every exponent. -/
theorem capacityQuantities : Obligations.CapacityQuantities := by
  unfold Obligations.CapacityQuantities
  refine ⟨?mib2, ?mib4, ?mib8, ?mib16, fun c => ⟨boundary_eq_pageWidth c, ?_, dsMask_eq_one_shiftLeft c⟩⟩
  case mib2 | mib4 | mib8 | mib16 => decide
  rw [capacity_eq, Nat.mul_comm]

end Sys2Proof.Machine
end

section
/-! ### What a completed request did -/

namespace Sys2Proof.Machine

/-- What `RESET` can do where it completes (R170, R171). -/
theorem execReset_next {c : ConfigRecord} {s t : State} (h : execReset c s = .next t) :
    s.phase ≠ .constructed ∧ c.capacityClass = s.cfg.capacityClass ∧
      c.expansionInstalled = s.cfg.expansionInstalled ∧ t = (s.resetTo c).respond .nothing := by
  unfold execReset at h
  split_ifs at h with hp hk
  simp only [keepsSizes, Bool.and_eq_true, beq_iff_eq] at hk
  exact ⟨hp, hk.1, hk.2, by cases h; rfl⟩

/-- `Completion i s t`: instruction `i` completes from `s` in `t`. One constructor for each way to complete; what `RD` returns
is left out, `execRd_next` says it. A control write gives the registers of its bits the values `sel`, `wide` and `p`. -/
inductive Completion : Instr → State → State → Prop
  | read {x : Word} {s : State} (res : Result) (running : s.phase = .running) : Completion (.rd x) s (s.respond res)
  | writeNowhere {x : Word} {v : Byte} {s : State} (running : s.phase = .running) :
      Completion (.wr x v) s (s.respond .nothing)
  | write {x : Word} {v : Byte} {s : State} {ref : StoreRef} (running : s.phase = .running)
      (decoded : busDecode s x = .ok (some ref)) (inStore : ref.off < s.storeSize ref.region) :
      Completion (.wr x v) s ((s.putByte ref v).respond .nothing)
  | control {i : Instr} {a : Word} {k : Nat} {v : Bool} {s : State} {sel wide : Bool} {p : Page}
      (tuple : controlTuple i = some (a, k, v)) (running : s.phase = .running)
      (selBit : k ≠ 0 → sel = s.selected) (wideBit : k ≠ 15 → wide = s.wideModeActive)
      (wideAllowed : s.cfg.wideModeAllowed = false → wide = s.wideModeActive)
      (fits : s.page.toNat < 2 ^ pageWidth s.cfg.capacityClass → p.toNat < 2 ^ pageWidth s.cfg.capacityClass) :
      Completion i s ((((s.setSelected sel).setWide wide).setPage p).respond .nothing)
  | reset {c : ConfigRecord} {s : State} (imaged : s.phase ≠ .constructed)
      (sameCapacity : c.capacityClass = s.cfg.capacityClass)
      (sameExpansion : c.expansionInstalled = s.cfg.expansionInstalled) :
      Completion (.reset c) s ((s.resetTo c).respond .nothing)
  | hide {b : Bool} {s : State} (running : s.phase = .running) :
      Completion (.hide b) s ((s.setHide b).respond .nothing)
  | load {img : Image} {s : State} (notRunning : s.phase ≠ .running) :
      Completion (.loadImage img) s (s.withImage (loadedMain s.cfg.capacityClass img) (loadedFirmware img))
  | default {s : State} (notRunning : s.phase ≠ .running) : Completion .defaultImage s (s.withImage [] [])
  | save {s : State} : Completion .saveImage s (s.respond (.image (savedImage s)))

/-- Every instruction that completes does so in one of these ways. -/
theorem completion_of_exec {i : Instr} {s t : State} (h : exec i s = .next t) : Completion i s t := by
  cases hc : controlTuple i with
  | some tuple =>
    obtain ⟨a, k, v⟩ := tuple
    obtain ⟨hp, sel, wide, p, rfl, hsel, hwide, hallowed, hfits⟩ := control_next hc h
    exact .control hc hp hsel hwide hallowed hfits
  | none =>
    cases i <;> simp only [controlTuple, reduceCtorEq] at hc
    case rd x =>
      obtain ⟨hp, ⟨-, rfl⟩ | ⟨ref, -, -, rfl⟩⟩ := execRd_next h
      · exact .read _ hp
      · exact .read _ hp
    case wr x v =>
      obtain ⟨hp, ⟨-, rfl⟩ | ⟨ref, hd, hin, rfl⟩⟩ := execWr_next h
      · exact .writeNowhere hp
      · exact .write hp hd hin
    case reset c =>
      obtain ⟨hp, hcap, hexp, rfl⟩ := execReset_next h
      exact .reset hp hcap hexp
    case hide b =>
      obtain ⟨hp, ht⟩ := whenRunning_next h
      cases ht
      exact .hide hp
    case loadImage img =>
      obtain ⟨hp, ht⟩ := beforeReset_next h
      cases ht
      exact .load hp
    case defaultImage =>
      obtain ⟨hp, ht⟩ := beforeReset_next h
      cases ht
      exact .default hp
    case saveImage =>
      cases h
      exact .save

/-- `CTL.SEL` alone has bit index 0 (R70). -/
theorem eq_ctlSel_of_tuple {i : Instr} {a : Word} {v : Bool} (h : controlTuple i = some (a, 0, v)) : i = .ctlSel a v := by
  cases i <;> simp_all [controlTuple]

/-- `CTL.WIDE` alone has bit index 15 (R70). -/
theorem eq_ctlWide_of_tuple {i : Instr} {a : Word} {v : Bool} (h : controlTuple i = some (a, 15, v)) :
    i = .ctlWide a v := by
  cases i <;> simp_all [controlTuple]

end Sys2Proof.Machine
end

section
/-! ### The session's constants and the registers (R21 to R25, R171, R172) -/

namespace Sys2Proof.Machine

@[simp] theorem State.resetTo_cfg (s : State) (c : ConfigRecord) : (s.resetTo c).cfg = c := rfl
@[simp] theorem State.resetTo_phase (s : State) (c : ConfigRecord) : (s.resetTo c).phase = .running := rfl
@[simp] theorem State.resetTo_page (s : State) (c : ConfigRecord) : (s.resetTo c).page = 0 := rfl
@[simp] theorem State.resetTo_wideModeActive (s : State) (c : ConfigRecord) : (s.resetTo c).wideModeActive = false := rfl
@[simp] theorem State.resetTo_windows (s : State) (c : ConfigRecord) : (s.resetTo c).windows = s.windows := rfl
@[simp] theorem State.resetTo_port (s : State) (c : ConfigRecord) : (s.resetTo c).port = s.port := rfl
@[simp] theorem State.resetTo_session (s : State) (c : ConfigRecord) : (s.resetTo c).session = s.session := rfl
@[simp] theorem State.resetTo_store (s : State) (c : ConfigRecord) (r : Region) : (s.resetTo c).store r = s.store r := by
  simp [State.resetTo]

@[simp] theorem State.withImage_cfg (s : State) (m f : Memory) : (s.withImage m f).cfg = s.cfg := rfl
@[simp] theorem State.withImage_phase (s : State) (m f : Memory) : (s.withImage m f).phase = .imageReady := rfl
@[simp] theorem State.withImage_windows (s : State) (m f : Memory) : (s.withImage m f).windows = s.windows := rfl
@[simp] theorem State.withImage_port (s : State) (m f : Memory) : (s.withImage m f).port = s.port := rfl
@[simp] theorem State.withImage_session (s : State) (m f : Memory) : (s.withImage m f).session = s.session := rfl

/-- No image touches a register (R133, R134). -/
theorem State.withImage_registers (s : State) (m f : Memory) : SameRegisters s (s.withImage m f) := ⟨rfl, rfl, rfl, rfl⟩

variable {i : Instr} {s t : State}

/-- The record changes only by `RESET`, which keeps the two fields that size the stores (R24, R171). -/
theorem Completion.cfg (h : Completion i s t) :
    t.cfg = s.cfg ∨ ∃ c, i = .reset c ∧ t.cfg = c ∧ c.capacityClass = s.cfg.capacityClass ∧
      c.expansionInstalled = s.cfg.expansionInstalled := by
  cases h with
  | reset _ hcap hexp => exact .inr ⟨_, rfl, rfl, hcap, hexp⟩
  | _ => exact .inl (by simp)

theorem Completion.capacityClass (h : Completion i s t) : t.cfg.capacityClass = s.cfg.capacityClass := by
  obtain hc | ⟨c, -, hc, hcap, -⟩ := h.cfg
  · rw [hc]
  · rw [hc, hcap]

theorem Completion.expansionInstalled (h : Completion i s t) :
    t.cfg.expansionInstalled = s.cfg.expansionInstalled := by
  obtain hc | ⟨c, -, hc, -, hexp⟩ := h.cfg
  · rw [hc]
  · rw [hc, hexp]

/-- A store keeps its size (R27). -/
theorem Completion.storeSize (h : Completion i s t) (r : Region) : t.storeSize r = s.storeSize r :=
  State.storeSize_congr h.capacityClass h.expansionInstalled r

theorem Completion.windows (h : Completion i s t) : t.windows = s.windows := by cases h <;> simp

theorem Completion.port (h : Completion i s t) : t.port = s.port := by cases h <;> simp

theorem Completion.session (h : Completion i s t) : t.session = s.session := by cases h <;> simp

/-- The phases move forward: `RESET` starts the running one, and an image makes ready before it (R172). -/
theorem Completion.phase (h : Completion i s t) :
    t.phase = s.phase ∨ ((∃ c, i = .reset c) ∧ t.phase = .running) ∨ (s.phase ≠ .running ∧ t.phase = .imageReady) := by
  cases h with
  | reset => exact .inr (.inl ⟨⟨_, rfl⟩, rfl⟩)
  | load hp => exact .inr (.inr ⟨hp, rfl⟩)
  | default hp => exact .inr (.inr ⟨hp, rfl⟩)
  | _ => exact .inl (by simp)

/-- Settles O56: the completion rules give the fields that are kept and the moves of the phase. -/
theorem sessionConstantsKept : Obligations.SessionConstantsKept := by
  unfold Obligations.SessionConstantsKept
  intro i s t he
  have h := completion_of_exec he
  refine ⟨h.capacityClass, h.expansionInstalled, h.windows, h.port, h.session, fun hne => ?cfg, ?phase⟩
  case cfg =>
    obtain hc | ⟨c, hi, -⟩ := h.cfg
    · exact absurd hc hne
    · exact ⟨c, hi⟩
  case phase =>
    obtain hp | ⟨hi, hp⟩ | ⟨hs, hp⟩ := h.phase
    · rw [hp]
      exact ⟨id, id, .inl⟩
    · simp [hp, hi]
    · simp [hp, hs]

/-- Settles O54: a control write changes `selected` and `wideModeActive` by its own bit alone, and a request other than
control writes, `RESET` and `HIDE` keeps the four registers. -/
theorem registersHaveOnlyTheirWriters : Obligations.RegistersHaveOnlyTheirWriters := by
  unfold Obligations.RegistersHaveOnlyTheirWriters
  intro i s t he
  have kept : ∀ {P₁ P₂ P₃ P₄ : Prop}, SameRegisters s t → (t.page ≠ s.page → P₁) ∧ (t.selected ≠ s.selected → P₂) ∧
      (t.wideModeActive ≠ s.wideModeActive → P₃) ∧ (t.hideSwitch ≠ s.hideSwitch → P₄) :=
    fun ⟨hp, hs, hw, hh⟩ => ⟨absurd hp, absurd hs, absurd hw, absurd hh⟩
  cases completion_of_exec he with
  | read | writeNowhere | write | save => exact kept (by simp [SameRegisters])
  | load | default => exact kept (State.withImage_registers _ _ _)
  | hide => exact ⟨absurd rfl, absurd rfl, absurd rfl, fun _ => .inl ⟨_, rfl⟩⟩
  | reset => exact ⟨fun _ => .inr ⟨_, rfl⟩, fun _ => .inr ⟨_, rfl⟩, fun _ => .inr ⟨_, rfl⟩, fun _ => .inr ⟨_, rfl⟩⟩
  | @control _ a k v _ sel wide p tuple _ selBit wideBit =>
    refine ⟨fun _ => .inl (by simp [tuple]), fun hsel => .inl ⟨a, v, ?_⟩, fun hwide => .inl ⟨a, v, ?_⟩, absurd rfl⟩
    · obtain rfl : k = 0 := not_not.1 fun hk => hsel (selBit hk)
      exact eq_ctlSel_of_tuple tuple
    · obtain rfl : k = 15 := not_not.1 fun hk => hwide (wideBit hk)
      exact eq_ctlWide_of_tuple tuple

end Sys2Proof.Machine
end

section
/-! ### The stores (R27, R135) -/

namespace Sys2Proof.Machine

/-- What an unlisted offset reads as depends on whether an image has come, which `RESET` does not change. -/
theorem State.resetTo_unlisted {s : State} (h : s.phase ≠ .constructed) (c : ConfigRecord) (r : Region) :
    (s.resetTo c).unlisted r = s.unlisted r := by
  cases r <;> simp [State.unlisted, h]

variable {i : Instr} {s t : State}

/-- The stores keep their memories, and what an unlisted offset of them reads as. -/
def SameStores (s t : State) : Prop := ∀ r, t.store r = s.store r ∧ t.unlisted r = s.unlisted r

theorem SameStores.of_phase (hs : ∀ r, t.store r = s.store r) (hp : t.phase = s.phase) : SameStores s t :=
  fun r => ⟨hs r, State.unlisted_of_phase hp r⟩

theorem SameStores.sameBytes (h : SameStores s t) (hn : t.session = s.session) : SameBytes s t :=
  fun r => State.storeByte_congr (h r).1 (h r).2 hn

/-- Only a `WR` that reaches a store and the requests that bring an image change a store. -/
theorem Completion.stores (h : Completion i s t) :
    SameStores s t ∨
    (∃ x v ref, i = .wr x v ∧ ref.off < s.storeSize ref.region ∧ t = (s.putByte ref v).respond .nothing) ∨
    (∃ img, i = .loadImage img ∧ t = s.withImage (loadedMain s.cfg.capacityClass img) (loadedFirmware img)) ∨
    (i = .defaultImage ∧ t = s.withImage [] []) := by
  cases h with
  | read | writeNowhere | control | hide | save => exact .inl (.of_phase (by simp) (by simp))
  | @reset c _ imaged => exact .inl fun r => ⟨by simp, State.resetTo_unlisted imaged c r⟩
  | write _ _ inStore => exact .inr (.inl ⟨_, _, _, rfl, inStore, rfl⟩)
  | load => exact .inr (.inr (.inl ⟨_, rfl, rfl⟩))
  | default => exact .inr (.inr (.inr ⟨rfl, rfl⟩))

/-- Settles O55: a request that keeps the stores keeps their bytes, and no image reaches `ExpansionStore`. -/
theorem storesHaveOnlyTheirWriters : Obligations.StoresHaveOnlyTheirWriters := by
  unfold Obligations.StoresHaveOnlyTheirWriters
  intro i s t r o he hne
  have h := completion_of_exec he
  have notExpansion : ∀ m f, t = s.withImage m f → r ≠ .expansion := by
    rintro m f rfl rfl
    exact hne (withImage_expansion s m f o)
  obtain hs | ⟨x, v, ref, hi, -⟩ | ⟨img, hi, ht⟩ | ⟨hi, ht⟩ := h.stores
  · exact absurd (hs.sameBytes h.session r o) hne
  · exact .inl ⟨x, v, hi⟩
  · exact .inr (.inl ⟨notExpansion _ _ ht, .inl ⟨img, hi⟩⟩)
  · exact .inr (.inl ⟨notExpansion _ _ ht, .inr hi⟩)

end Sys2Proof.Machine
end

section
/-! ### The decoder gives well-formed images (R66) -/

namespace Sys2Proof

/-- No request with a tuple of fields is a `LOAD` (R60). -/
theorem decode_fields_ne_loadImage (op : PortOp) (bytes : List Byte) (img : Image) :
    decode (.fields op bytes) ≠ .ok (.loadImage img) := by
  cases op <;> simp only [decode]
  case read => unfold decodeRead; split <;> simp
  case write => unfold decodeWrite; split <;> simp
  case controlBitWrite =>
    have notControl : ∀ k a v, controlRow k a v ≠ .loadImage img := fun k a v h => by
      have := h ▸ controlRow_tuple k a v
      simp [Machine.controlTuple] at this
    unfold decodeControl
    split
    · split_ifs <;> simp [notControl]
    · simp
  case reset =>
    unfold decodeReset
    split
    · split <;> simp
    · simp
  case setHideSwitch =>
    unfold decodeHide
    split
    · split_ifs <;> simp
    · simp
  case persistDefault => unfold decodeNoOperand; split <;> simp
  case persistSave => unfold decodeNoOperand; split <;> simp

/-- The image of a decoded `LOAD` is a byte sequence in its canonical form. -/
theorem decode_loadImage_wf {r : PortRequest} {img : Image} (h : decode r = .ok (.loadImage img)) : img.wf = true := by
  cases r with
  | fields op bytes => exact absurd h (decode_fields_ne_loadImage op bytes img)
  | persistLoad img' =>
    rw [decode, decodeLoad] at h
    split_ifs at h with hr hz hi
    cases h
    simp_all [Image.wf]

end Sys2Proof
end

section
/-! ### The invariant (R26, R85) -/

namespace Sys2Proof.Machine

/-- The invariant, its store clauses over all regions at once. -/
theorem inv_iff (s : State) :
    Inv s ↔ PageFits s ∧ WideOnlyIfAllowed s ∧ ExpansionOffsetsFit s.windows ∧ ∀ r, StoreWf s r := by
  have stores : (∀ r, StoreWf s r) ↔ StoreWf s .main ∧ StoreWf s .firmware ∧ StoreWf s .expansion :=
    ⟨fun h => ⟨h _, h _, h _⟩, fun ⟨hm, hf, he⟩ r => by cases r <;> assumption⟩
  rw [stores]

/-- A store that lists nothing is in its canonical form. -/
theorem storeWf_of_store_nil {s : State} {r : Region} (h : s.store r = []) : StoreWf s r := by
  rw [StoreWf, h]
  exact Memory.wf_nil _ _

/-- A store's form depends on its memory, its size and what an unlisted offset reads as. -/
theorem storeWf_congr {s t : State} {r : Region} (hm : t.store r = s.store r) (hu : t.unlisted r = s.unlisted r)
    (hn : t.storeSize r = s.storeSize r) : StoreWf t r ↔ StoreWf s r := by
  rw [StoreWf, StoreWf, hm, hu, hn]

/-- A memory in canonical form is so in a larger store. -/
theorem Memory.wf_mono {u : Option Byte} {n n' : Nat} {m : Memory} (h : Memory.wf u n m = true) (hn : n ≤ n') :
    Memory.wf u n' m = true := by
  rw [Memory.wf_iff] at h ⊢
  exact ⟨h.1, fun c hc => ⟨(h.2 c hc).1.trans_le hn, (h.2 c hc).2⟩⟩

/-- What a `LOAD` puts into `MainStore` is in canonical form (R133). -/
theorem loadedMain_wf {img : Image} (h : img.wf = true) (c : CapacityClass) :
    Memory.wf (some 0#8) (capacity c) (loadedMain c img) = true := by
  unfold loadedMain
  split_ifs
  · exact Memory.wf_nil _ _
  · exact Memory.wf_mono (Memory.slice_wf ((Image.wf_iff img).1 h) _ _) (min_le_right _ _)

/-- What a `LOAD` puts into `FirmwareStore` is in canonical form (R133). -/
theorem loadedFirmware_wf {img : Image} (h : img.wf = true) :
    Memory.wf (some 0#8) firmwareBytes (loadedFirmware img) = true := by
  unfold loadedFirmware
  split_ifs
  · exact Memory.wf_nil _ _
  · exact Memory.slice_wf ((Image.wf_iff img).1 h) _ _

/-- An image in canonical form keeps all three stores in it; `ExpansionStore` it does not touch (R135). -/
theorem withImage_storeWf {s : State} {m f : Memory} (hs : ∀ r, StoreWf s r)
    (hm : Memory.wf (some 0#8) (capacity s.cfg.capacityClass) m = true)
    (hf : Memory.wf (some 0#8) firmwareBytes f = true) (r : Region) : StoreWf (s.withImage m f) r := by
  cases r with
  | main => exact hm
  | firmware => exact hf
  | expansion => exact hs .expansion

/-- A byte written inside its store keeps all stores in canonical form. -/
theorem putByte_storeWf {s : State} (hs : ∀ r, StoreWf s r) {ref : StoreRef}
    (hin : ref.off < s.storeSize ref.region) (v : Byte) (r : Region) : StoreWf (s.putByte ref v) r := by
  have hu : (s.putByte ref v).unlisted r = s.unlisted r := State.unlisted_of_phase (by simp) r
  have hn : (s.putByte ref v).storeSize r = s.storeSize r := State.storeSize_congr (by simp) (by simp) r
  by_cases hr : r = ref.region
  · subst hr
    have hm : (s.putByte ref v).store ref.region =
        Memory.write (s.unlisted ref.region) (s.store ref.region) ref.off v := by simp [State.putByte]
    rw [StoreWf, hu, hn, hm]
    exact Memory.write_wf (hs ref.region) hin v
  · exact (storeWf_congr (by simp [State.putByte, hr]) hu hn).2 (hs r)

/-! ### Each clause is kept -/

variable {i : Instr} {s t : State}

/-- R26(a): a control write stays below `2^W`, and `RESET` clears the page. -/
theorem Completion.pageFits (h : Completion i s t) (hs : PageFits s) : PageFits t := by
  cases h with
  | read | writeNowhere | write | hide | save => simpa [PageFits] using hs
  | control _ running _ _ _ fits => exact fun _ => fits (hs running)
  | reset => exact fun _ => Nat.two_pow_pos _
  | load | default => exact fun hp => nomatch hp

/-- R26(b): a control write changes `wideModeActive` only where it is allowed, and `RESET` clears it. -/
theorem Completion.wideOnlyIfAllowed (h : Completion i s t) (hs : WideOnlyIfAllowed s) : WideOnlyIfAllowed t := by
  cases h with
  | read | writeNowhere | write | hide | save => simpa [WideOnlyIfAllowed] using hs
  | @control _ _ _ _ _ sel wide p _ running _ _ wideAllowed =>
    intro _ hwide
    cases ha : s.cfg.wideModeAllowed with
    | true => exact ha
    | false => exact absurd (hs running ((wideAllowed ha).symm.trans hwide)) (by simp [ha])
  | reset => exact fun _ hwide => nomatch hwide
  | load | default => exact fun hp => nomatch hp

/-- The stores stay in canonical form, where the image of a `LOAD` is in its own. -/
theorem Completion.storeWf (h : Completion i s t) (himg : ∀ img, i = .loadImage img → img.wf = true)
    (hs : ∀ r, StoreWf s r) (r : Region) : StoreWf t r := by
  obtain hsame | ⟨x, v, ref, -, hin, rfl⟩ | ⟨img, hi, rfl⟩ | ⟨-, rfl⟩ := h.stores
  · exact (storeWf_congr (hsame r).1 (hsame r).2 (h.storeSize r)).2 (hs r)
  · exact putByte_storeWf hs hin v r
  · exact withImage_storeWf hs (loadedMain_wf (himg img hi) _) (loadedFirmware_wf (himg img hi)) r
  · exact withImage_storeWf hs (Memory.wf_nil _ _) (Memory.wf_nil _ _) r

/-- Every instruction that completes keeps the invariant. -/
theorem Completion.inv (h : Completion i s t) (himg : ∀ img, i = .loadImage img → img.wf = true) (hs : Inv s) :
    Inv t := by
  rw [inv_iff] at hs ⊢
  obtain ⟨hpage, hwide, hwin, hstores⟩ := hs
  exact ⟨h.pageFits hpage, h.wideOnlyIfAllowed hwide, h.windows ▸ hwin, h.storeWf himg hstores⟩

/-- The invariant does not speak of the pending requests. -/
theorem Inv.setPort (h : Inv s) (q : List PortRequest) : Inv (s.setPort q) := h

/-- Settles O52: an idle step keeps the state, and any other runs an instruction whose image, if it has one, the decoder
has checked. -/
theorem stepKeepsInv : Obligations.StepKeepsInv := by
  unfold Obligations.StepKeepsInv
  intro s t hs hstep
  obtain ⟨-, hidle⟩ | ⟨r, rest, -, ⟨e, -, herr⟩ | ⟨i, hdec, hexec⟩⟩ := step_cases s
  · rw [hidle] at hstep
    cases hstep
    exact hs
  · rw [herr] at hstep
    cases hstep
  · rw [hexec] at hstep
    refine (completion_of_exec hstep).inv ?_ (Inv.setPort hs rest)
    rintro img rfl
    exact decode_loadImage_wf hdec

/-! ### Where it holds first -/

/-- Settles O10: the registers are cleared, the default windows meet R85 and the stores list nothing. -/
theorem resetStateMeetsInv : Obligations.ResetStateMeetsInv := by
  unfold Obligations.ResetStateMeetsInv
  rw [inv_iff]
  refine ⟨fun _ => Nat.two_pow_pos _, fun _ hwide => (nomatch hwide), ?windows, fun r => storeWf_of_store_nil ?_⟩
  case windows => decide
  cases r <;> rfl

/-- Settles O11: before the first `RESET` nothing is asked of the registers, and the stores list nothing. -/
theorem constructionMeetsInv : Obligations.ConstructionMeetsInv := by
  unfold Obligations.ConstructionMeetsInv
  intro n c0 w q hw
  rw [inv_iff]
  refine ⟨fun hp => (nomatch hp), fun hp => (nomatch hp), hw, fun r => storeWf_of_store_nil ?_⟩
  cases r <;> rfl

/-- Settles O9: the fields of `State.reset`. -/
theorem resetStateValues : Obligations.ResetStateValues := ⟨rfl, rfl, rfl, rfl, rfl⟩

/-- Settles O7: the two cases of a step that runs no instruction. -/
theorem stepWithoutRequest : Obligations.StepWithoutRequest := by
  unfold Obligations.StepWithoutRequest
  refine ⟨fun s hport => ?idle, fun s r rest e hport hdec => ?malformed⟩
  case idle => simp [step, State.fetch, hport]
  case malformed => simp [step, State.fetch, hport, hdec]

end Sys2Proof.Machine
end

section
/-! ### Reads while hidden (R25, R86) -/

namespace Sys2Proof.Machine

/-- While hidden the decoder reaches an expansion sub-window or nothing (R80, steps 1 and 2). -/
theorem busDecode_hidden {s : State} (h : s.hideSwitch = true) (x : Word) :
    busDecode s x = .ok ((expansionHit s x).map fun w => ⟨.expansion, expansionOffset w x⟩) := by
  unfold busDecode
  cases expansionHit s x <;> simp [h]

variable {s t : State}

/-- The expansion step of the decoder reads `expansionInstalled` and the window parameters alone. -/
theorem expansionHit_congr (he : t.cfg.expansionInstalled = s.cfg.expansionInstalled) (hw : t.windows = s.windows)
    (x : Word) : expansionHit t x = expansionHit s x := by
  rw [expansionHit, expansionHit, he, hw]

/-- A read of a place depends on the store's size and the byte there. -/
theorem State.memRead_congr {ref : StoreRef} (hn : t.storeSize ref.region = s.storeSize ref.region)
    (hb : t.storeByte ref.region ref.off = s.storeByte ref.region ref.off) : t.memRead ref = s.memRead ref := by
  rw [State.memRead_eq, State.memRead_eq, hn, hb]

/-- What `RD` returns depends on the phase, the decoded place and what stands there. -/
theorem returned_execRd_congr {x : Word} (hp : t.phase = s.phase) (hd : busDecode t x = busDecode s x)
    (hr : ∀ ref, busDecode s x = .ok (some ref) → t.memRead ref = s.memRead ref) :
    returned (execRd x t) = returned (execRd x s) := by
  rw [execRd, execRd, whenRunning, whenRunning, hp, hd]
  split_ifs
  · rcases hbus : busDecode s x with r | (_ | ref)
    · rfl
    · rfl
    · dsimp only
      rw [hr ref hbus]
      cases s.memRead ref <;> rfl
  · rfl

/-- Settles O31: the decoder, hidden, gives the same place in both states, and it is one of `ExpansionStore`. -/
theorem hiddenReadsLearnNothing : Obligations.HiddenReadsLearnNothing := by
  unfold Obligations.HiddenReadsLearnNothing
  intro s t x hs ht hphase hexp hwin hbytes
  refine returned_execRd_congr hphase ?decode fun ref href => ?read
  case decode => rw [busDecode_hidden hs, busDecode_hidden ht, expansionHit_congr hexp hwin]
  case read =>
    rw [busDecode_hidden hs] at href
    obtain ⟨w, -, rfl⟩ : ∃ w, expansionHit s x = some w ∧ (⟨.expansion, expansionOffset w x⟩ : StoreRef) = ref := by
      simpa using href
    exact State.memRead_congr (by simp [State.storeSize, hexp]) (hbytes _)

end Sys2Proof.Machine
end

section
/-! ### The decoder reads encoded requests back (R60 to R66, R70) -/

namespace Sys2Proof

/-- Every well-formed instruction is read back from its raw form. -/
theorem decode_encode {i : Instr} (h : wellFormed i = true) : decode (encode i) = .ok i := by
  cases i with
  | rd x => simp [encode, decode, decodeRead, wordOfBytes_bytes]
  | wr x v => simp [encode, decode, decodeWrite, wordOfBytes_bytes]
  | reset c => simp [encode, decode, decodeReset, configOfBytes_bytes]
  | hide b => cases b <;> rfl
  | loadImage img =>
    simp only [wellFormed, Image.wf, Bool.and_eq_true] at h
    obtain ⟨⟨⟨hrising, hzero⟩, hrange⟩, hfits⟩ := h
    simp [encode, decode, decodeLoad, hrising, hzero, hrange, hfits]
  | defaultImage => rfl
  | saveImage => rfl
  | _ => exact decode_controlBytes _ _ _

end Sys2Proof
end

section
/-! ### Steps and request runs (R48, R60) -/

namespace Sys2Proof.Machine

/-- Settles O6: the step takes the oldest request off the port and decodes it. -/
theorem stepRunsDecodedRequest : Obligations.StepRunsDecodedRequest := by
  unfold Obligations.StepRunsDecodedRequest
  intro s r rest i hport hdec
  simp [step, State.fetch, hport, hdec]

/-- Settles O8, by induction on the requests: a step executes the first of them with the rest pending, and the
instruction does the same whatever is pending behind it. -/
theorem portRunIsRequestRun : Obligations.PortRunIsRequestRun := by
  unfold Obligations.PortRunIsRequestRun
  intro l q s hwf hport
  induction l generalizing s with
  | nil =>
    obtain rfl : s.port = q := hport
    rfl
  | cons i l ih =>
    have hstep : core.step s = withPort (l.map encode ++ q) (exec i s) := by
      rw [← exec_setPort]
      exact stepRunsDecodedRequest s _ _ i hport (decode_encode (hwf i (by simp)))
    refine (run_succ core l.length s).trans ?_
    rw [hstep, runRequests, exec_setPort]
    cases exec i s with
    | next t => exact ih (t.setPort _) (fun j hj => hwf j (by simp [hj])) rfl
    | fault f => rfl
    | refused r => rfl

end Sys2Proof.Machine
end

section
/-! ### Predicates as offset sets (R43) -/

namespace Sys2Proof.Machine

/-- The listed offsets as a set of runs of one offset each. -/
def singletons (l : List Word) : OffsetSet := l.map fun x => ⟨x, x⟩

theorem offsetIn_singletons (l : List Word) (x : Word) : offsetIn (singletons l) x = decide (x ∈ l) := by
  have inRun : ∀ a : Word, (a.ule x && x.ule a) = decide (x = a) := by
    intro a
    rw [Bool.eq_iff_iff]
    simp only [BitVec.ule, Bool.and_eq_true, decide_eq_true_eq, ← BitVec.toNat_inj]
    omega
  rw [offsetIn, singletons, List.any_map, Bool.eq_iff_iff]
  simp [inRun]

/-- All offsets of the bus (R9). -/
def allOffsets : List Word := (List.finRange (2 ^ 16)).map BitVec.ofFin

theorem mem_allOffsets (x : Word) : x ∈ allOffsets :=
  List.mem_map.2 ⟨x.toFin, List.mem_finRange _, rfl⟩

/-- Settles O23: the set lists each offset that the predicate holds of. -/
theorem everyPredicateIsAnOffsetSet : Obligations.EveryPredicateIsAnOffsetSet := by
  unfold Obligations.EveryPredicateIsAnOffsetSet
  intro f
  refine ⟨singletons (allOffsets.filter f), fun x => ?_⟩
  simp [offsetIn_singletons, mem_allOffsets]

end Sys2Proof.Machine
end

section
/-! ### Completion of the bus requests (R46, R72, R82, R83, R85) -/

namespace Sys2Proof.Machine

variable {s t : State} {x : Word} {v : Byte} {ref : StoreRef}

theorem execRd_of_none (hp : s.phase = .running) (hd : busDecode s x = .ok none) :
    execRd x s = .next (s.respond (.byte none)) := by
  rw [execRd, whenRunning_running hp, hd]

theorem execRd_of_some (hp : s.phase = .running) (hd : busDecode s x = .ok (some ref))
    (hin : ref.off < s.storeSize ref.region) :
    execRd x s = .next (s.respond (.byte (some (s.storeByte ref.region ref.off)))) := by
  rw [execRd, whenRunning_running hp, hd]
  simp [State.memRead_eq, hin]

theorem execWr_of_none (hp : s.phase = .running) (hd : busDecode s x = .ok none) :
    execWr x v s = .next (s.respond .nothing) := by
  rw [execWr, whenRunning_running hp, hd]

theorem execWr_of_some (hp : s.phase = .running) (hd : busDecode s x = .ok (some ref))
    (hin : ref.off < s.storeSize ref.region) : execWr x v s = .next ((s.putByte ref v).respond .nothing) := by
  rw [execWr, whenRunning_running hp, hd]
  simp [State.memWrite_eq, hin]

/-- A window test whose predicate is not asked or is given has an answer (R81). -/
theorem windowTest_answers {genmod : Option OffsetSet} (h : s.cfg.genmodFix = false ∨ genmod.isSome = true)
    (base x : Word) : ∃ b, windowTest s base genmod x = .ok b := by
  unfold windowTest
  cases genmod <;> cases hg : s.cfg.genmodFix <;> simp_all

/-- With the window predicates known the decoder has an answer at every offset. -/
theorem busDecode_answers (h : WindowsKnown s) (x : Word) : ∃ o, busDecode s x = .ok o := by
  obtain ⟨fw, hfw⟩ : ∃ b, inFw s x = .ok b := windowTest_answers (h.imp_right And.left) _ _
  obtain ⟨cart, hcart⟩ : ∃ b, inCart s x = .ok b := windowTest_answers (h.imp_right And.right) _ _
  unfold busDecode
  split
  · exact ⟨_, rfl⟩
  · split_ifs
    · exact ⟨_, rfl⟩
    · exact ⟨_, rfl⟩
    · cases fw <;> cases hov : inOverlay x <;> simp [decodePlain, hfw, hov]
    · cases fw <;> cases cart <;> simp [decodeWide, hfw, hcart]

/-- A decoded place exists (R85). -/
theorem busDecode_inStore (hpage : s.page.toNat < 2 ^ pageWidth s.cfg.capacityClass)
    (hwin : ExpansionOffsetsFit s.windows) (hd : busDecode s x = .ok (some ref)) :
    ref.off < s.storeSize ref.region := by
  have firmware : firmwareOffset x < s.storeSize .firmware := by
    rw [firmwareOffset, wrel_toNat]
    exact Nat.mod_lt _ (by decide)
  have main (o : Nat) (ho : o < 2 ^ pageWidth s.cfg.capacityClass * 2048) : o < s.storeSize .main := by
    rwa [State.storeSize, capacity_eq]
  obtain ⟨w, hhit, rfl⟩ | ⟨-, -, -, -, -, ⟨-, rfl⟩ | ⟨-, rfl⟩⟩ | ⟨-, -, -, ⟨-, rfl⟩ | ⟨-, -, rfl⟩⟩ := busDecode_some hd
  · obtain ⟨hinst, hmem, -⟩ := expansionHit_some hhit
    simpa [State.storeSize, hinst, expansionBytes] using expansionOffset_lt (hwin w hmem) x
  · exact main (overlayOffset s.page x) (by rw [overlayOffset_eq]; omega)
  · exact firmware
  · exact firmware
  · refine main (wideOffset s.page x) ?_
    obtain ⟨k, hk⟩ : 2 ^ 10 ∣ 2 ^ pageWidth s.cfg.capacityClass :=
      Nat.pow_dvd_pow 2 (pageWidth_bounds s.cfg.capacityClass).1
    rw [wideOffset_eq]
    omega

/-- A read changes nothing but the result. -/
theorem execRd_frame (h : execRd x s = .next t) : SameBytes s t ∧ SameRegisters s t ∧ SameSetting s t := by
  obtain ⟨-, ⟨-, rfl⟩ | ⟨ref, -, -, rfl⟩⟩ := execRd_next h
  · simp [SameBytes, SameRegisters, SameSetting]
  · simp [SameBytes, SameRegisters, SameSetting]

/-- A write changes nothing but a store byte and the result. -/
theorem execWr_frame (h : execWr x v s = .next t) : SameRegisters s t ∧ SameSetting s t := by
  obtain ⟨-, ⟨-, rfl⟩ | ⟨ref, -, -, rfl⟩⟩ := execWr_next h
  · simp [SameRegisters, SameSetting]
  · simp [SameRegisters, SameSetting]

/-- Settles O27: the decoder answers, and a place it gives exists; the frame is that of the two requests. -/
theorem busRequestsComplete : Obligations.BusRequestsComplete := by
  unfold Obligations.BusRequestsComplete
  rintro s x v ⟨hpage, -, hwin, -⟩ hp hknown
  obtain ⟨t, u, hrd, hwr⟩ : ∃ t u, exec (.rd x) s = .next t ∧ exec (.wr x v) s = .next u := by
    obtain ⟨_ | ref, hd⟩ := busDecode_answers hknown x
    · exact ⟨_, _, execRd_of_none hp hd, execWr_of_none hp hd⟩
    · have hin := busDecode_inStore (hpage hp) hwin hd
      exact ⟨_, _, execRd_of_some hp hd hin, execWr_of_some hp hd hin⟩
  exact ⟨⟨t, hrd, execRd_frame hrd⟩, ⟨u, hwr, execWr_frame hwr⟩⟩

end Sys2Proof.Machine
end

section
/-! ### Aliases of wide-mode and plain-mode offsets (R53, C6) -/

namespace Sys2Proof.Machine

variable {s : State} {x : Word}

/-- Step 5 of R80 in the cartridge window. -/
theorem busDecode_wideCart (hhit : expansionHit s x = none) (hhide : s.hideSwitch = false)
    (hwide : s.wideModeActive = true) (hfw : inFw s x = .ok false) (hcart : inCart s x = .ok true) :
    busDecode s x = .ok (some ⟨.main, wideOffset s.page x⟩) := by
  simp [busDecode, decodeWide, hhit, hhide, hwide, hfw, hcart]

/-- Step 4 of R80 in the page overlay. -/
theorem busDecode_plainOverlay (hhit : expansionHit s x = none) (hhide : s.hideSwitch = false)
    (hsel : s.selected = true) (hwide : s.wideModeActive = false) (hfw : inFw s x = .ok true)
    (hov : inOverlay x = true) : busDecode s x = .ok (some ⟨.main, overlayOffset s.page x⟩) := by
  simp [busDecode, decodePlain, hhit, hhide, hsel, hwide, hfw, hov]

/-- A wide block is four pages: its store offset is that of the page and intra-page offset on the right. -/
theorem wideOffset_eq_overlayOffset_iff (p q : Page) (x y : Word) :
    wideOffset p x = overlayOffset q y ↔
      q.toNat = p.toNat / 4 * 4 + x.toNat % 8192 / 2048 ∧ y.toNat % 2048 = x.toNat % 2048 := by
  rw [wideOffset_eq, overlayOffset_eq]
  omega

/-- Settles O30: both offsets reach `MainStore`, so the places agree exactly when the store offsets do. -/
theorem wideAndPlainAliases : Obligations.WideAndPlainAliases := by
  unfold Obligations.WideAndPlainAliases
  intro s t x y hswide hshide hshit hsfw hscart htwide htsel hthide hthit htfw hov
  have hov' : inOverlay y = true := by simpa [inOverlay_eq] using hov
  rw [busDecode_wideCart hshit hshide hswide hsfw hscart, busDecode_plainOverlay hthit hthide htsel htwide htfw hov',
    ← wideOffset_eq_overlayOffset_iff]
  simp

end Sys2Proof.Machine
end

section
/-! ### Repeated requests (R47) -/

namespace Sys2Proof.Machine

variable {s t : State}

/-! #### Bus requests -/

theorem State.setStore_setStore (s : State) (r : Region) (m m' : Memory) :
    (s.setStore r m).setStore r m' = s.setStore r m' := by
  cases r <;> rfl

theorem State.putByte_putByte_self (s : State) (ref : StoreRef) (v : Byte) :
    (s.putByte ref v).putByte ref v = s.putByte ref v := by
  have hu : (s.putByte ref v).unlisted ref.region = s.unlisted ref.region := State.unlisted_of_phase (by simp) _
  have hm : (s.putByte ref v).store ref.region =
      Memory.write (s.unlisted ref.region) (s.store ref.region) ref.off v := by simp [State.putByte]
  rw [State.putByte, hu, hm, Memory.write_write_self]
  exact State.setStore_setStore s _ _ _

theorem State.respond_putByte (s : State) (ref : StoreRef) (v : Byte) (r : Result) :
    (s.respond r).putByte ref v = (s.putByte ref v).respond r := by
  obtain ⟨r', o⟩ := ref
  cases r' <;> rfl

/-- A read leaves the decoder and the byte it reads as they were. -/
theorem execRd_again {x : Word} (h : execRd x s = .next t) : execRd x t = .next t := by
  have hdec (r : Result) : busDecode (s.respond r) x = busDecode s x := busDecode_congr rfl rfl rfl rfl rfl rfl x
  obtain ⟨hp, ⟨hd, rfl⟩ | ⟨ref, hd, hin, rfl⟩⟩ := execRd_next h
  · exact execRd_of_none hp ((hdec _).trans hd)
  · exact execRd_of_some hp ((hdec _).trans hd) hin

/-- A write leaves the decoder as it was, and its byte is there already. -/
theorem execWr_again {x : Word} {v : Byte} (h : execWr x v s = .next t) : execWr x v t = .next t := by
  obtain ⟨hp, ⟨hd, rfl⟩ | ⟨ref, hd, hin, rfl⟩⟩ := execWr_next h
  · exact execWr_of_none hp ((busDecode_congr rfl rfl rfl rfl rfl rfl x).trans hd)
  · have hd' : busDecode ((s.putByte ref v).respond .nothing) x = .ok (some ref) := by
      rw [← hd]
      apply busDecode_congr <;> simp
    have hsize : ((s.putByte ref v).respond .nothing).storeSize ref.region = s.storeSize ref.region :=
      State.storeSize_congr (by simp) (by simp) _
    rw [execWr_of_some (by simpa using hp) hd' (hsize ▸ hin), State.respond_putByte, State.putByte_putByte_self]
    rfl

/-! #### Control writes as writes of page bits -/

/-- The page with a bit written, or as it is. -/
def writeBit : Option (Nat × Bool) → Page → Page
  | none, p => p
  | some (i, v), p => setBit p i v

/-- The written bit, if there is one, is a bit of the page register. -/
abbrev BitInPage (w : Option (Nat × Bool)) : Prop := ∀ b ∈ w, b.1 < 13

/-- What a bit write gives bit `j`, if it writes it. -/
def writtenBit : Option (Nat × Bool) → Nat → Option Bool
  | none, _ => none
  | some (i, v), j => if j = i then some v else none

theorem writeBit_getLsbD {w : Option (Nat × Bool)} (hw : BitInPage w) (p : Page) (j : Nat) :
    (writeBit w p).getLsbD j = (writtenBit w j).getD (p.getLsbD j) := by
  match w, hw with
  | none, _ => rfl
  | some (i, v), hw =>
    rw [writeBit, setBit_getLsbD p (hw _ rfl), writtenBit]
    split_ifs <;> rfl

/-- Two bit writes repeated change nothing more: each bit keeps what its last writer gave it. -/
theorem writeBit_writeBit_again {w d : Option (Nat × Bool)} (hw : BitInPage w) (hd : BitInPage d) (p : Page) :
    writeBit d (writeBit w (writeBit d (writeBit w p))) = writeBit d (writeBit w p) := by
  refine BitVec.eq_of_getLsbD_eq fun j _ => ?_
  simp only [writeBit_getLsbD hw, writeBit_getLsbD hd]
  cases writtenBit d j <;> cases writtenBit w j <;> rfl

/-- The bit that the drive-select step writes (R117). -/
def driveWrite (s : State) (a : Word) (k : Nat) : Option (Nat × Bool) :=
  (driveBit s a k).map fun ds => (boundary s.cfg.capacityClass - 1, ds)

theorem driveSelect_eq (a : Word) (k : Nat) (s : State) :
    driveSelect a k s = s.setPage (writeBit (driveWrite s a k) s.page) := by
  unfold driveSelect driveWrite
  cases driveBit s a k <;> rfl

theorem driveWrite_inPage (s : State) (a : Word) (k : Nat) : BitInPage (driveWrite s a k) := by
  have hw := pageWidth_bounds s.cfg.capacityClass
  rintro b hb
  obtain ⟨ds, -, rfl⟩ := Option.map_eq_some_iff.1 hb
  show boundary _ - 1 < 13
  rw [boundary_eq_pageWidth]
  omega

/-- The drive-select step reads the record alone. -/
theorem driveWrite_congr (h : t.cfg = s.cfg) (a : Word) (k : Nat) : driveWrite t a k = driveWrite s a k := by
  simp only [driveWrite, driveBit, h]

/-- What a bit rule writes at `s`: values of `selected` and `wideModeActive` and at most one page bit. Under the same
record, where the two flags have these values already, it writes that page bit again and keeps the rest. -/
structure RuleWrites (rule : State → State) (s : State) (sel wide : Bool) (w : Option (Nat × Bool)) : Prop where
  inPage : BitInPage w
  first : rule s = ((s.setSelected sel).setWide wide).setPage (writeBit w s.page)
  again : ∀ t, t.cfg = s.cfg → t.selected = sel → t.wideModeActive = wide → rule t = t.setPage (writeBit w t.page)

/-- A rule that writes a page bit by what the record and `wideModeActive` say. -/
theorem RuleWrites.of_page {rule : State → State} (w : ConfigRecord → Bool → Option (Nat × Bool))
    (hin : ∀ c wide, BitInPage (w c wide))
    (h : ∀ t, rule t = t.setPage (writeBit (w t.cfg t.wideModeActive) t.page)) (s : State) :
    ∃ sel wide w, RuleWrites rule s sel wide w :=
  ⟨s.selected, s.wideModeActive, w s.cfg s.wideModeActive, hin _ _, h s, fun t hc _ hwide => by rw [h t, hc, hwide]⟩

theorem selectRule_writes (v : Bool) (s : State) : ∃ sel wide w, RuleWrites (selectRule v) s sel wide w := by
  refine ⟨v, s.wideModeActive, none, by simp, rfl, ?_⟩
  rintro t - rfl -
  rfl

theorem wideRule_writes (v : Bool) (s : State) : ∃ sel wide w, RuleWrites (wideRule v) s sel wide w := by
  by_cases ha : s.cfg.wideModeAllowed = true
  · refine ⟨s.selected, v, none, by simp, by rw [wideRule, if_pos ha]; rfl, ?_⟩
    rintro t hc - rfl
    rw [wideRule, if_pos (hc ▸ ha)]
    rfl
  · refine ⟨s.selected, s.wideModeActive, none, by simp, by rw [wideRule, if_neg ha]; rfl, fun t hc _ _ => ?_⟩
    rw [wideRule, if_neg (hc ▸ ha)]
    rfl

theorem lowPageRule_writes {i : Nat} (hi : i < 13) (v : Bool) (s : State) :
    ∃ sel wide w, RuleWrites (lowPageRule i v) s sel wide w := by
  refine RuleWrites.of_page (fun _ wide => if wide then none else some (i, v)) ?_ (fun t => ?_) s
  · intro _ wide
    cases wide <;> simp [hi]
  · unfold lowPageRule
    split_ifs <;> rfl

theorem midPageRule_writes {i : Nat} (hi : i < 13) (v : Bool) (s : State) :
    ∃ sel wide w, RuleWrites (midPageRule i v) s sel wide w :=
  RuleWrites.of_page (fun _ _ => some (i, v)) (fun _ _ => by simpa using hi) (fun _ => rfl) s

/-- The page bit that control bits 10 to 13 write, under a record (R110 to R113). -/
def highPageWrite (k i : Nat) (v : Bool) (c : ConfigRecord) : Option (Nat × Bool) :=
  if k ≤ boundary c.capacityClass ∧ ¬(k = boundary c.capacityClass ∧ c.splitMode ≠ .disabled) then some (i, v) else none

theorem highPageRule_eq (k i : Nat) (v : Bool) (s : State) :
    highPageRule k i v s = s.setPage (writeBit (highPageWrite k i v s.cfg) s.page) := by
  simp only [highPageRule, highPageWrite, splitOn, bne_iff_ne]
  split_ifs <;> rfl

theorem highPageRule_writes {i : Nat} (hi : i < 13) (k : Nat) (v : Bool) (s : State) :
    ∃ sel wide w, RuleWrites (highPageRule k i v) s sel wide w := by
  refine RuleWrites.of_page (fun c _ => highPageWrite k i v c) (fun c _ => ?_) (highPageRule_eq k i v) s
  unfold highPageWrite
  split_ifs <;> simp [hi]

/-- A control instruction is the control request of its tuple, with a rule that writes two flags and one page bit. -/
theorem exec_control_writes {i : Instr} {a : Word} {k : Nat} {v : Bool} (h : controlTuple i = some (a, k, v)) :
    ∃ rule, (∀ s, exec i s = controlRequest a k rule s) ∧ ∀ s, ∃ sel wide w, RuleWrites rule s sel wide w := by
  cases i <;> simp only [controlTuple, Option.some.injEq, Prod.mk.injEq, reduceCtorEq] at h <;>
    obtain ⟨rfl, rfl, rfl⟩ := h
  case ctlSel => exact ⟨_, fun _ => rfl, selectRule_writes _⟩
  case ctlPg1 | ctlPg0 => exact ⟨_, fun _ => rfl, lowPageRule_writes (by decide) _⟩
  case ctlPg2 | ctlPg3 | ctlPg4 | ctlPg5 | ctlPg6 | ctlPg7 | ctlPg8 =>
    exact ⟨_, fun _ => rfl, midPageRule_writes (by decide) _⟩
  case ctlPg9 | ctlPg10 | ctlPg11 | ctlPg12 => exact ⟨_, fun _ => rfl, highPageRule_writes (by decide) _ _⟩
  case ctlRsv => exact ⟨reservedRule, fun _ => rfl, RuleWrites.of_page (fun _ _ => none) (by simp) fun _ => rfl⟩
  case ctlWide => exact ⟨_, fun _ => rfl, wideRule_writes _⟩

section
variable {a : Word} {k : Nat} {rule : State → State} {sel wide : Bool} {w : Option (Nat × Bool)}

/-- A control write in whole: the rule's flags and page bit, then the drive-select bit. -/
theorem RuleWrites.driveSelect_eq (h : RuleWrites rule s sel wide w) (a : Word) (k : Nat) :
    driveSelect a k (rule s) =
      ((s.setSelected sel).setWide wide).setPage (writeBit (driveWrite s a k) (writeBit w s.page)) := by
  rw [Machine.driveSelect_eq, h.first]
  rfl

theorem RuleWrites.of_written (h : RuleWrites rule s sel wide w) (hcfg : t.cfg = s.cfg) (hsel : t.selected = sel)
    (hwide : t.wideModeActive = wide) : RuleWrites rule t sel wide w where
  inPage := h.inPage
  first := by
    rw [h.again t hcfg hsel hwide, ← hsel, ← hwide]
    rfl
  again u hu := h.again u (hu.trans hcfg)

/-- The bit rule and the drive-select step do nothing more the second time. -/
theorem RuleWrites.driveSelect_again (h : RuleWrites rule s sel wide w)
    (ht : t = (driveSelect a k (rule s)).respond .nothing) : (driveSelect a k (rule t)).respond .nothing = t := by
  rw [h.driveSelect_eq] at ht
  have hcfg : t.cfg = s.cfg := by rw [ht]; rfl
  have hpage : t.page = writeBit (driveWrite s a k) (writeBit w s.page) := by rw [ht]; rfl
  have hwrites : RuleWrites rule t sel wide w := h.of_written hcfg (by rw [ht]; rfl) (by rw [ht]; rfl)
  rw [hwrites.driveSelect_eq, driveWrite_congr hcfg, hpage,
    writeBit_writeBit_again h.inPage (driveWrite_inPage s a k), ht]
  rfl

theorem controlRequest_again (hrule : RuleWrites rule s sel wide w) (h : controlRequest a k rule s = .next t) :
    controlRequest a k rule t = .next t := by
  obtain ⟨hp, ht⟩ := controlRequest_next h
  obtain ⟨hphase, hcfg⟩ : t.phase = s.phase ∧ t.cfg = s.cfg := by
    rw [ht, hrule.driveSelect_eq]
    split_ifs <;> exact ⟨rfl, rfl⟩
  have hq : qualifies t a = qualifies s a := by rw [qualifies, qualifies, hcfg]
  rw [controlRequest_running (hphase.trans hp), hq]
  split_ifs at ht ⊢
  · rw [hrule.driveSelect_again ht]
  · rw [ht]
    rfl

end

/-- Settles O44: reads, writes and control writes, each by its own rule. -/
theorem requestsIdempotent : Obligations.RequestsIdempotent := by
  unfold Obligations.RequestsIdempotent
  rintro s t i (⟨x, rfl⟩ | ⟨x, v, rfl⟩ | hctl) he
  · exact execRd_again he
  · exact execWr_again he
  · obtain ⟨⟨a, k, v⟩, htuple⟩ := Option.isSome_iff_exists.1 hctl
    obtain ⟨rule, hexec, hwrites⟩ := exec_control_writes htuple
    obtain ⟨sel, wide, w, hrule⟩ := hwrites s
    rw [hexec] at he ⊢
    exact controlRequest_again hrule he

end Sys2Proof.Machine
end

section
/-! ### Requests and instructions are in bijection (R60 to R66, R70, R73) -/

namespace Sys2Proof

open Machine (controlTuple)

/-- Settles O1: the decoder reads each row's raw form back. -/
theorem decodeEncodeRoundTrip : Obligations.DecodeEncodeRoundTrip := by
  unfold Obligations.DecodeEncodeRoundTrip
  exact fun _ => decode_encode

variable {bytes : List Byte} {i : Instr}

/-! #### What each format's decoder accepts, and as what -/

theorem decodeRead_ok (h : decodeRead bytes = .ok i) : ∃ lo hi, bytes = [lo, hi] ∧ i = .rd (wordOfBytes lo hi) := by
  unfold decodeRead at h
  split at h <;> cases h
  exact ⟨_, _, rfl, rfl⟩

theorem decodeWrite_ok (h : decodeWrite bytes = .ok i) :
    ∃ lo hi v, bytes = [lo, hi, v] ∧ i = .wr (wordOfBytes lo hi) v := by
  unfold decodeWrite at h
  split at h <;> cases h
  exact ⟨_, _, _, rfl, rfl⟩

theorem decodeControl_ok (h : decodeControl bytes = .ok i) :
    ∃ k a v, bytes = controlBytes k a v ∧ i = controlRow k a v := by
  unfold decodeControl at h
  split at h
  next b0 b1 b2 =>
    split_ifs at h with hpad
    cases h
    exact ⟨_, _, _, (controlBytes_cut hpad).symm, rfl⟩
  next => cases h

theorem decodeReset_ok (h : decodeReset bytes = .ok i) :
    ∃ c, bytes = [configFlags c, lowByte c.baseA, highByte c.baseA, lowByte c.baseB, highByte c.baseB] ∧ i = .reset c := by
  unfold decodeReset at h
  split at h
  next flags aLo aHi bLo bHi =>
    split at h <;> cases h
    next c hc =>
      obtain ⟨hflags, hA, hB⟩ := configFlags_cut _ _ _ _ _ _ hc
      refine ⟨c, ?_, rfl⟩
      simp [hflags, hA, hB, bytes_wordOfBytes]
  next => cases h

/-- A byte with zeros above its bit 0 is that bit. -/
theorem eq_append_ofBool {b : Byte} (h : b.extractLsb' 1 7 = 0#7) : b = 0#7 ++ BitVec.ofBool (b.getLsbD 0) := by
  revert b
  decide

theorem decodeHide_ok (h : decodeHide bytes = .ok i) : ∃ v, bytes = [0#7 ++ BitVec.ofBool v] ∧ i = .hide v := by
  unfold decodeHide at h
  split at h
  next b =>
    split_ifs at h with hpad
    cases h
    exact ⟨_, congrArg (fun x => [x]) (eq_append_ofBool hpad), rfl⟩
  next => cases h

theorem decodeNoOperand_ok {j : Instr} (h : decodeNoOperand j bytes = .ok i) : bytes = [] ∧ i = j := by
  unfold decodeNoOperand at h
  split at h <;> cases h
  exact ⟨rfl, rfl⟩

theorem decodeLoad_ok {img : Image} (h : decodeLoad img = .ok i) :
    i = .loadImage img ∧ wellFormed (.loadImage img) = true := by
  unfold decodeLoad at h
  split_ifs at h with hrising hzero hrange hfits
  cases h
  simp_all [wellFormed, Image.wf]

/-! #### Back to the raw form -/

/-- A control instruction is well formed, and its tuple gives its raw form (R63, R70). -/
theorem encode_of_tuple {a : Word} {k : Nat} {v : Bool} (h : controlTuple i = some (a, k, v)) :
    encode i = encodeControl (BitVec.ofNat 4 k) a v ∧ wellFormed i = true := by
  cases i <;> simp only [controlTuple, Option.some.injEq, Prod.mk.injEq, reduceCtorEq] at h <;>
    obtain ⟨rfl, rfl, rfl⟩ := h <;> exact ⟨rfl, rfl⟩

theorem encode_controlRow (k : BitVec 4) (a : Word) (v : Bool) :
    encode (controlRow k a v) = encodeControl k a v ∧ wellFormed (controlRow k a v) = true := by
  simpa using encode_of_tuple (controlRow_tuple k a v)

/-- A raw request that decodes is the raw form of a well-formed instruction. -/
theorem encode_of_decode {r : PortRequest} (h : decode r = .ok i) : encode i = r ∧ wellFormed i = true := by
  cases r with
  | persistLoad img =>
    obtain ⟨rfl, hwf⟩ := decodeLoad_ok h
    exact ⟨rfl, hwf⟩
  | fields op bytes =>
    cases op with
    | read =>
      obtain ⟨lo, hi, rfl, rfl⟩ := decodeRead_ok h
      simp [encode, wellFormed, bytes_wordOfBytes]
    | write =>
      obtain ⟨lo, hi, v, rfl, rfl⟩ := decodeWrite_ok h
      simp [encode, wellFormed, bytes_wordOfBytes]
    | controlBitWrite =>
      obtain ⟨k, a, v, rfl, rfl⟩ := decodeControl_ok h
      exact encode_controlRow k a v
    | reset =>
      obtain ⟨c, rfl, rfl⟩ := decodeReset_ok h
      exact ⟨rfl, rfl⟩
    | setHideSwitch =>
      obtain ⟨v, rfl, rfl⟩ := decodeHide_ok h
      exact ⟨rfl, rfl⟩
    | persistDefault =>
      obtain ⟨rfl, rfl⟩ := decodeNoOperand_ok h
      exact ⟨rfl, rfl⟩
    | persistSave =>
      obtain ⟨rfl, rfl⟩ := decodeNoOperand_ok h
      exact ⟨rfl, rfl⟩

/-- Settles O2: each format's decoder accepts only the raw forms of its instructions. -/
theorem encodeDecodeRoundTrip : Obligations.EncodeDecodeRoundTrip := by
  unfold Obligations.EncodeDecodeRoundTrip
  exact fun _ _ => encode_of_decode

/-- Settles O4: the fields of the three bytes in arithmetic. -/
theorem controlTupleIsCut : Obligations.ControlTupleIsCut := by
  unfold Obligations.ControlTupleIsCut
  refine fun b0 b1 b2 => ⟨fun hb2 => ?_, fun hb2 => ?_⟩
  · refine ⟨controlRow (controlIndex b0) (controlAddress b0 b1 b2) (controlValue b2), _, _, ?_,
      controlIndex_toNat b0 ▸ controlRow_tuple _ _ _, ?_⟩
    · simp [decode, decodeControl, (padding_iff b2).2 hb2]
    · rw [controlAddress_toNat, controlValue_eq]
      simp only [decide_eq_true_eq]
      split_ifs <;> omega
  · have hpad : ¬ b2.extractLsb' 5 3 = 0#3 := by rw [padding_iff]; omega
    simp [decode, decodeControl, hpad]

/-- Settles O3: each request is the raw form of its instruction, bytes evaluated. -/
theorem specWordsDecode : Obligations.SpecWordsDecode :=
  ⟨decode_encode (i := .rd 0x5800) rfl, decode_encode (i := .wr 0x5000 0xAB) rfl,
    decode_encode (i := .ctlPg0 0x1200 true) rfl, decode_encode (i := .ctlRsv 0x1400 false) rfl,
    decode_encode (i := .hide true) rfl⟩

/-- Settles O5: the offset is the word of the two bytes. -/
theorem busTuplesAreCut : Obligations.BusTuplesAreCut := by
  unfold Obligations.BusTuplesAreCut
  exact fun lo hi v => ⟨wordOfBytes lo hi, wordOfBytes_toNat lo hi, rfl, rfl⟩

end Sys2Proof
end

section
/-! ### The saved image (R66, R131, R132) -/

namespace Sys2Proof.Machine

/-- Two canonical memories one behind the other are a canonical memory. -/
theorem Memory.append_shift_wf {u : Option Byte} {n k : Nat} {m m' : Memory} (h : Memory.wf u n m = true)
    (h' : Memory.wf u k m' = true) : Memory.wf u (n + k) (m ++ Memory.shift m' n) = true := by
  rw [Memory.wf_iff] at h h' ⊢
  obtain ⟨hrise, hin⟩ := h
  obtain ⟨hrise', hin'⟩ := h'
  have shifted : ∀ c ∈ Memory.shift m' n, n ≤ c.1 ∧ c.1 < n + k ∧ u ≠ some c.2 := by
    intro c hc
    obtain ⟨d, hd, rfl⟩ := List.mem_map.1 hc
    obtain ⟨hlt, hu⟩ := hin' d hd
    exact ⟨Nat.le_add_left n d.1, by simp only; omega, hu⟩
  refine ⟨List.pairwise_append.2 ⟨hrise, ?_, fun c hc d hd => (hin c hc).1.trans_le (shifted d hd).1⟩, fun c hc => ?_⟩
  · exact List.pairwise_map.2 (hrise'.imp fun hlt => Nat.add_lt_add_right hlt n)
  · obtain hc | hc := List.mem_append.1 hc
    · exact ⟨(hin c hc).1.trans_le (Nat.le_add_right n k), (hin c hc).2⟩
    · exact (shifted c hc).2

/-- The image of two canonical stores is in canonical form: before the first image it is written out byte by byte, and
from then on both stores leave out exactly the zeros. -/
theorem savedImage_wf {s : State} (hm : StoreWf s .main) (hf : StoreWf s .firmware) : (savedImage s).wf = true := by
  unfold savedImage
  by_cases hp : s.phase = .constructed
  · simpa [hp] using imageOfBytes_wf _
  · simp only [StoreWf, State.unlisted, hp, if_false] at hm hf
    simpa [hp, Image.wf_iff] using Memory.append_shift_wf (Memory.slice_wf hm 0 _) (Memory.slice_wf hf 0 _)

theorem capacity_le_maxCapacity (c : CapacityClass) : capacity c ≤ maxCapacity := by
  cases c <;> decide

theorem savedImage_lengthFits (s : State) : (savedImage s).lengthFits = true := by
  have := capacity_le_maxCapacity s.cfg.capacityClass
  simpa [Image.lengthFits, savedImage_length, maxImageBytes] using this

/-- Settles O47: what `SAVE` returns is the saved image. -/
theorem savedImageLoads : Obligations.SavedImageLoads := by
  unfold Obligations.SavedImageLoads
  intro s t img hm hf he himg
  cases he
  cases himg
  simp [wellFormed, savedImage_wf hm hf, savedImage_lengthFits]

end Sys2Proof.Machine
end

section
/-! ### The default address map (R71, R80) -/

namespace Sys2Proof.Machine

/-- The window test with a base, by the number of the window that starts there. -/
theorem winBase_beq (x : Word) {base : Word} {k : Nat} (h : base.toNat = k * 8192) :
    (winBase x == base) = decide (x.toNat / 8192 = k) := by
  rw [Bool.eq_iff_iff, beq_iff_eq, decide_eq_true_eq, ← BitVec.toNat_inj, winBase_toNat, h]
  omega

/-- A sub-window whose bytes begin at a multiple of 8 KiB has them from that place on. -/
theorem expansionOffset_eq {w : ExpansionWindow} {k : Nat} (h : w.off.toNat = 8192 * k) (x : Word) :
    expansionOffset w x = 8192 * k + x.toNat % 8192 := by
  rw [expansionOffset, BitVec.toNat_or, h, wrel_toNat]
  exact (Nat.two_pow_add_eq_or_of_lt (i := 13) (Nat.mod_lt _ (by decide)) k).symm

section
variable {s : State} {x : Word}

/-- With `genmodFix` false a window is given by its base (R81). -/
theorem windowTest_base {base : Word} {genmod : Option OffsetSet} (hg : s.cfg.genmodFix = false) :
    windowTest s base genmod x = .ok (winBase x == base) := by
  simp [windowTest, hg]

/-- Step 1 of R80. -/
theorem busDecode_of_hit {w : ExpansionWindow} (h : expansionHit s x = some w) :
    busDecode s x = .ok (some ⟨.expansion, expansionOffset w x⟩) := by
  rw [busDecode, h]

/-- Steps 2 to 5 of R80, where both window tests answer. -/
theorem busDecode_of_noHit {fw cart : Bool} (h : expansionHit s x = none) (hfw : inFw s x = .ok fw)
    (hcart : inCart s x = .ok cart) :
    busDecode s x = .ok (
      if s.hideSwitch = true then none
      else if fw = true ∧ s.wideModeActive = true then some ⟨.firmware, firmwareOffset x⟩
      else if fw = true ∧ s.selected = true then
        if inOverlay x = true then some ⟨.main, overlayOffset s.page x⟩ else some ⟨.firmware, firmwareOffset x⟩
      else if cart = true ∧ s.wideModeActive = true then some ⟨.main, wideOffset s.page x⟩
      else none) := by
  cases hhide : s.hideSwitch with
  | true => simp [busDecode, h, hhide]
  | false =>
    cases hwide : s.wideModeActive with
    | true => cases fw <;> cases cart <;> simp [busDecode, decodeWide, h, hhide, hwide, hfw, hcart]
    | false =>
      cases hsel : s.selected with
      | false => simp [busDecode, h, hhide, hwide, hsel]
      | true =>
        cases fw with
        | false => simp [busDecode, decodePlain, h, hhide, hwide, hsel, hfw]
        | true => cases hov : inOverlay x <;> simp [busDecode, decodePlain, h, hhide, hwide, hsel, hfw, hov]

/-- The sub-window that an offset hits with the default windows, by the number of the offset's window (R7). -/
theorem expansionHit_default (hw : s.windows = defaultWindows) (x : Word) :
    expansionHit s x =
      if s.cfg.expansionInstalled = true then
        if x.toNat / 8192 = 1 then some defaultWindows.exp0
        else if x.toNat / 8192 = 5 then some defaultWindows.exp1
        else if x.toNat / 8192 = 6 then some defaultWindows.exp2
        else if x.toNat / 8192 = 7 then some defaultWindows.exp3
        else none
      else none := by
  have h0 : inExp x defaultWindows.exp0 = decide (x.toNat / 8192 = 1) := winBase_beq x rfl
  have h1 : inExp x defaultWindows.exp1 = decide (x.toNat / 8192 = 5) := winBase_beq x rfl
  have h2 : inExp x defaultWindows.exp2 = decide (x.toNat / 8192 = 6) := winBase_beq x rfl
  have h3 : inExp x defaultWindows.exp3 = decide (x.toNat / 8192 = 7) := winBase_beq x rfl
  rw [expansionHit, hw]
  simp only [expansionWindows, List.find?, h0, h1, h2, h3]
  split_ifs <;> simp_all

/-- The place that a hit with the default windows reaches, for window number 1 or 5 to 7. -/
theorem busDecode_defaultExpansion (hw : s.windows = defaultWindows) (hinst : s.cfg.expansionInstalled = true) :
    (x.toNat / 8192 = 1 → busDecode s x = .ok (some ⟨.expansion, x.toNat % 8192⟩)) ∧
    (5 ≤ x.toNat / 8192 →
      busDecode s x = .ok (some ⟨.expansion, 8192 * (x.toNat / 8192 - 4) + x.toNat % 8192⟩)) := by
  have hit := expansionHit_default hw x
  rw [if_pos hinst] at hit
  refine ⟨fun hn => ?_, fun hn => ?_⟩
  · rw [busDecode_of_hit (hit.trans (if_pos hn)), expansionOffset_eq (k := 0) rfl, Nat.zero_add]
  · have hlt := x.isLt
    obtain hn | hn | hn : x.toNat / 8192 = 5 ∨ x.toNat / 8192 = 6 ∨ x.toNat / 8192 = 7 := by omega
    all_goals
      simp only [hn, Nat.reduceEqDiff, if_true, if_false] at hit
      rw [busDecode_of_hit hit, hn]
    · rw [expansionOffset_eq (k := 1) rfl]
    · rw [expansionOffset_eq (k := 2) rfl]
    · rw [expansionOffset_eq (k := 3) rfl]

end

/-- Settles O16: by the number of the offset's window, expansion first. -/
theorem defaultAddressMap : Obligations.DefaultAddressMap := by
  unfold Obligations.DefaultAddressMap
  intro s x hw hg
  have hfw : inFw s x = .ok (decide (x.toNat / 8192 = 2)) := by
    rw [inFw, windowTest_base hg, hw, winBase_beq x (k := 2) rfl]
  have hcart : inCart s x = .ok (decide (x.toNat / 8192 = 3)) := by
    rw [inCart, windowTest_base hg, hw, winBase_beq x (k := 3) rfl]
  by_cases h1 : s.cfg.expansionInstalled = true ∧ x.toNat / 8192 = 1
  · rw [if_pos h1, (busDecode_defaultExpansion hw h1.1).1 h1.2]
  by_cases h5 : s.cfg.expansionInstalled = true ∧ 5 ≤ x.toNat / 8192
  · rw [if_neg h1, if_pos h5, (busDecode_defaultExpansion hw h5.1).2 h5.2]
  · have hit : expansionHit s x = none := by
      rw [expansionHit_default hw]
      cases hinst : s.cfg.expansionInstalled with
      | false => rfl
      | true =>
        simp only [hinst, true_and] at h1 h5
        have h5' : x.toNat / 8192 ≠ 5 ∧ x.toNat / 8192 ≠ 6 ∧ x.toNat / 8192 ≠ 7 := by omega
        simp [h1, h5']
    rw [if_neg h1, if_neg h5, busDecode_of_noHit hit hfw hcart]
    simp only [decide_eq_true_eq, inOverlay_eq, overlayOffset_eq, wideOffset_eq, firmwareOffset, wrel_toNat]

end Sys2Proof.Machine
end

section
/-! ### The whole page register (R69, R74) -/

namespace Sys2Proof.Machine

/-- The control write that carries page bit `j` (R69). -/
def pageWriter (a : Word) (v : Bool) : Nat → Instr
  | 0 => .ctlPg0 a v
  | 1 => .ctlPg1 a v
  | 2 => .ctlPg2 a v
  | 3 => .ctlPg3 a v
  | 4 => .ctlPg4 a v
  | 5 => .ctlPg5 a v
  | 6 => .ctlPg6 a v
  | 7 => .ctlPg7 a v
  | 8 => .ctlPg8 a v
  | 9 => .ctlPg9 a v
  | 10 => .ctlPg10 a v
  | 11 => .ctlPg11 a v
  | _ => .ctlPg12 a v

/-- With split mode off `SETPAGE` writes the page bits below `W`, each once and in rising order. -/
theorem setPageScript_eq {c : ConfigRecord} (h : c.splitMode = .disabled) (a : Word) (p : Page) :
    setPageScript c a p = (List.range (pageWidth c.capacityClass)).map fun j => pageWriter a (p.getLsbD j) j := by
  unfold setPageScript
  cases c.capacityClass <;> simp [h, boundary, pageWidth, exponent, List.range_succ, pageWriter]

section
variable {s : State} {a : Word}

/-- Where a qualifying control write's rule writes the page alone and split mode is off, the write completes with that
page. -/
theorem controlRequest_of_page {k : Nat} {rule : State → State} {q : Page} (hp : s.phase = .running)
    (hq : Qualifies s a) (hsplit : s.cfg.splitMode = .disabled) (hrule : rule s = s.setPage q) :
    controlRequest a k rule s = .next ((s.setPage q).respond .nothing) := by
  have hgate : qualifies s a = true := by simpa [qualifies] using hq
  have hdrive : driveBit (s.setPage q) a k = none := by simp [driveBit, hsplit]
  rw [controlRequest_running hp, if_pos hgate, hrule, driveSelect, hdrive]

/-- Outside split mode and wide mode each page bit's control write writes that bit. -/
theorem exec_pageWriter (hp : s.phase = .running) (hq : Qualifies s a) (hwide : s.wideModeActive = false)
    (hsplit : s.cfg.splitMode = .disabled) {j : Nat} (hj : j < pageWidth s.cfg.capacityClass) (v : Bool) :
    exec (pageWriter a v j) s = .next ((s.setPage (setBit s.page j v)).respond .nothing) := by
  have low (i : Nat) : lowPageRule i v s = s.setPage (setBit s.page i v) := by simp [lowPageRule, hwide]
  have high (i : Nat) (hi : i < pageWidth s.cfg.capacityClass) :
      highPageRule (i + 1) i v s = s.setPage (setBit s.page i v) := by
    have hk : i + 1 ≤ boundary s.cfg.capacityClass := hi
    simp [highPageRule, splitOn, hsplit, hk]
  have width := (pageWidth_bounds s.cfg.capacityClass).2
  match j with
  | 0 | 1 => exact controlRequest_of_page hp hq hsplit (low _)
  | 2 | 3 | 4 | 5 | 6 | 7 | 8 => exact controlRequest_of_page hp hq hsplit rfl
  | 9 | 10 | 11 | 12 => exact controlRequest_of_page hp hq hsplit (high _ hj)
  | j + 13 => omega

end

/-- The page `q` with the listed bits of `p`. -/
def copyBits (p : Page) : List Nat → Page → Page
  | [], q => q
  | j :: js, q => copyBits p js (setBit q j (p.getLsbD j))

theorem copyBits_getLsbD (p : Page) {js : List Nat} (hjs : ∀ j ∈ js, j < 13) (q : Page) (j : Nat) :
    (copyBits p js q).getLsbD j = if j ∈ js then p.getLsbD j else q.getLsbD j := by
  induction js generalizing q with
  | nil => simp [copyBits]
  | cons i js ih =>
    rw [copyBits, ih (fun j hj => hjs j (by simp [hj])), setBit_getLsbD q (hjs i (by simp))]
    by_cases hij : j = i <;> by_cases hmem : j ∈ js <;> simp [hij, hmem]

/-- Copying the bits below `w` makes two pages below `2 ^ w` equal. -/
theorem copyBits_range {p q : Page} {w : Nat} (hw : w ≤ 13) (hp : p.toNat < 2 ^ w) (hq : q.toNat < 2 ^ w) :
    copyBits p (List.range w) q = p := by
  rw [page_lt_iff] at hp hq
  refine BitVec.eq_of_getLsbD_eq fun j _ => ?_
  rw [copyBits_getLsbD p (fun j hj => (List.mem_range.1 hj).trans_le hw)]
  by_cases hj : j < w
  · simp [hj]
  · simp [hj, hp j (not_lt.1 hj), hq j (not_lt.1 hj)]

/-- The control writes of the listed page bits of `p` complete in the page with these bits, by induction on the list. -/
theorem runRequests_pageWriters {a : Word} (p : Page) {js : List Nat} {s : State} (hp : s.phase = .running)
    (hq : Qualifies s a) (hwide : s.wideModeActive = false) (hsplit : s.cfg.splitMode = .disabled)
    (hjs : ∀ j ∈ js, j < pageWidth s.cfg.capacityClass) :
    runRequests (js.map fun j => pageWriter a (p.getLsbD j) j) s =
      .next ((s.setPage (copyBits p js s.page)).respond (if js = [] then s.result else .nothing)) := by
  induction js generalizing s with
  | nil => rfl
  | cons j js ih =>
    rw [List.map_cons, runRequests, exec_pageWriter hp hq hwide hsplit (hjs j (by simp))]
    refine (ih (s := (s.setPage (setBit s.page j (p.getLsbD j))).respond .nothing) hp hq hwide hsplit
      fun j hj => hjs j (by simp [hj])).trans ?_
    cases js <;> rfl

/-- Settles O43: the script writes every page bit below `W`, and both pages have no others. -/
theorem setPageSetsThePage : Obligations.SetPageSetsThePage := by
  unfold Obligations.SetPageSetsThePage
  intro s a p hp hq hwide hsplit hpage hfits
  obtain ⟨hpos, hwidth⟩ := pageWidth_bounds s.cfg.capacityClass
  have hnonempty : List.range (pageWidth s.cfg.capacityClass) ≠ [] := by
    rw [ne_eq, List.range_eq_nil]
    omega
  rw [setPageScript_eq hsplit, runRequests_pageWriters p hp hq hwide hsplit (fun j => List.mem_range.1),
    copyBits_range hwidth hfits hpage, if_neg hnonempty]

end Sys2Proof.Machine
end

section
/-! ### The window tests and the expansion step in arithmetic (R80, R81, R86) -/

namespace Sys2Proof.Machine

variable {s t : State} {x : Word}

/-- The window test with a base, in arithmetic, for every base. -/
theorem winBase_beq_base (x base : Word) : (winBase x == base) = decide (x.toNat / 8192 * 8192 = base.toNat) := by
  rw [Bool.eq_iff_iff, beq_iff_eq, decide_eq_true_eq, ← BitVec.toNat_inj, winBase_toNat]

theorem offsetIn_eq (ws : OffsetSet) (x : Word) :
    offsetIn ws x = decide (∃ r ∈ ws, r.lo.toNat ≤ x.toNat ∧ x.toNat ≤ r.hi.toNat) := by
  rw [Bool.eq_iff_iff]
  simp [offsetIn, BitVec.ule]

section
variable {base : Word} {genmod : Option OffsetSet}

/-- With `genmodFix` true a window is given by its predicate (R81). -/
theorem windowTest_given {ws : OffsetSet} (hg : s.cfg.genmodFix = true) (h : genmod = some ws) :
    windowTest s base genmod x = .ok (offsetIn ws x) := by
  simp [windowTest, hg, h]

/-- A predicate that has no value refuses (R152). -/
theorem windowTest_unknown (hg : s.cfg.genmodFix = true) (h : genmod = none) :
    windowTest s base genmod x = .error .genmodWindowUnknown := by
  simp [windowTest, hg, h]

end

/-- Settles O58: by base, by predicate or by refusal, as the record and the window parameters say. -/
theorem windowPredicates : Obligations.WindowPredicates := by
  unfold Obligations.WindowPredicates
  intro s x
  refine ⟨fun hg => ⟨?_, ?_⟩, fun hg => ⟨fun ws hfw => ?_, fun hfw => ?_, fun ws hcart => ?_, fun hcart => ?_⟩,
    fun w => winBase_beq_base x w.base⟩
  · rw [inFw, windowTest_base hg, winBase_beq_base]
  · rw [inCart, windowTest_base hg, winBase_beq_base]
  · rw [inFw, windowTest_given hg hfw, offsetIn_eq]
  · exact windowTest_unknown hg hfw
  · rw [inCart, windowTest_given hg hcart, offsetIn_eq]
  · exact windowTest_unknown hg hcart

/-- The decoder asks the window tests for their answers alone (R80). -/
theorem busDecode_congr_windows (hpage : t.page = s.page) (hsel : t.selected = s.selected)
    (hwide : t.wideModeActive = s.wideModeActive) (hhide : t.hideSwitch = s.hideSwitch)
    (hhit : expansionHit t x = expansionHit s x) (hfw : inFw t x = inFw s x) (hcart : inCart t x = inCart s x) :
    busDecode t x = busDecode s x := by
  simp only [busDecode, decodePlain, decodeWide, hpage, hsel, hwide, hhide, hhit, hfw, hcart]

/-- A predicate that is one whole window is the window test with the base. -/
theorem offsetIn_window {lo hi : Word} {k : Nat} (hlo : lo.toNat = k * 8192) (hhi : hi.toNat = k * 8192 + 8191) :
    offsetIn [⟨lo, hi⟩] x = (winBase x == lo) := by
  rw [offsetIn_eq, winBase_beq x hlo]
  simp only [List.mem_singleton, exists_eq_left, hlo, hhi, decide_eq_decide]
  omega

/-- Settles O22: each predicate is the window that the default base starts, and expansion does not ask `genmodFix`. -/
theorem genmodAtDefaultsChangesNothing : Obligations.GenmodAtDefaultsChangesNothing := by
  unfold Obligations.GenmodAtDefaultsChangesNothing
  intro s t x hg hs ht hcfg hpage hsel hwide hhide
  have hgt : t.cfg.genmodFix = false := by rw [hcfg]
  refine (busDecode_congr_windows hpage hsel hwide hhide ?hit ?fw ?cart).symm
  case hit => rw [expansionHit, expansionHit, hs, ht, hcfg]; rfl
  case fw =>
    rw [inFw, inFw, windowTest_base hgt, windowTest_given hg (by rw [hs]), ht, offsetIn_window (k := 2) rfl rfl]
    rfl
  case cart =>
    rw [inCart, inCart, windowTest_base hgt, windowTest_given hg (by rw [hs]), ht, offsetIn_window (k := 3) rfl rfl]
    rfl

/-- The first of the listed sub-windows that the offset is in. -/
theorem find?_inExp_cons (w : ExpansionWindow) (ws : List ExpansionWindow) :
    (w :: ws).find? (inExp x) = if winBase x = w.base then some w else ws.find? (inExp x) := by
  by_cases h : winBase x = w.base
  · rw [if_pos h, List.find?_cons_of_pos (by simp [inExp, h])]
  · rw [if_neg h, List.find?_cons_of_neg (by simp [inExp, h])]

/-- Step 1 of R80 where expansion is installed: the first sub-window whose base matches. -/
theorem expansionHit_installed (hinst : s.cfg.expansionInstalled = true) (x : Word) :
    expansionHit s x =
      if winBase x = s.windows.exp0.base then some s.windows.exp0
      else if winBase x = s.windows.exp1.base then some s.windows.exp1
      else if winBase x = s.windows.exp2.base then some s.windows.exp2
      else if winBase x = s.windows.exp3.base then some s.windows.exp3
      else none := by
  rw [expansionHit, if_pos hinst]
  simp only [expansionWindows, find?_inExp_cons, List.find?_nil]

/-- Only a hit reaches `ExpansionStore` (R86). -/
theorem busDecode_ne_expansion (h : expansionHit s x = none) (o : Nat) :
    busDecode s x ≠ .ok (some ⟨.expansion, o⟩) := by
  intro hd
  obtain ⟨w, hw, -⟩ | ⟨-, -, -, -, -, ⟨-, href⟩ | ⟨-, href⟩⟩ | ⟨-, -, -, ⟨-, href⟩ | ⟨-, -, href⟩⟩ := busDecode_some hd
  · simp [h] at hw
  all_goals simp at href

/-- Settles O17: the hit is the first sub-window that matches, and without a hit no offset reaches `ExpansionStore`. -/
theorem expansionBeforeAllElse : Obligations.ExpansionBeforeAllElse := by
  unfold Obligations.ExpansionBeforeAllElse
  refine ⟨fun s x hinst => ?installed, fun s x o hinst => busDecode_ne_expansion (by simp [expansionHit, hinst]) o⟩
  have hit := expansionHit_installed hinst x
  unfold winBase at hit
  split_ifs at hit ⊢
  iterate 4 exact busDecode_of_hit hit
  exact busDecode_ne_expansion hit

end Sys2Proof.Machine
end

section
/-! ### The silent, plain and wide steps of the decoder (R80, R84, R85) -/

namespace Sys2Proof.Machine

variable {s : State} {x : Word}

/-- Steps 2 and 3 of R80. -/
theorem busDecode_silent (hhit : expansionHit s x = none)
    (h : s.hideSwitch = true ∨ (s.selected = false ∧ s.wideModeActive = false)) : busDecode s x = .ok none := by
  obtain hhide | ⟨hsel, hwide⟩ := h
  · simp [busDecode_hidden hhide, hhit]
  · simp [busDecode, hhit, hsel, hwide]

/-- Settles O18: the decoder answers no access. -/
theorem silentModes : Obligations.SilentModes := by
  unfold Obligations.SilentModes
  intro s x v hp hhit hsilent
  have hd := busDecode_silent hhit hsilent
  exact ⟨execRd_of_none hp hd, execWr_of_none hp hd⟩

/-- Step 4 of R80 in arithmetic, where the firmware window test answers. -/
theorem decodePlain_of_inFw {b : Bool} (hfw : inFw s x = .ok b) :
    decodePlain s x = .ok (
      if b = false then none
      else if 6144 ≤ x.toNat % 8192 then some ⟨.main, s.page.toNat * 2048 + x.toNat % 2048⟩
      else some ⟨.firmware, x.toNat % 8192⟩) := by
  rw [decodePlain, hfw]
  cases b with
  | false => rfl
  | true =>
    simp only [inOverlay_eq, overlayOffset_eq, firmwareOffset, wrel_toNat, decide_eq_true_eq, Bool.true_eq_false,
      if_false]
    split_ifs <;> rfl

/-- Settles O19: the flags lead to step 4. -/
theorem plainPagedDecode : Obligations.PlainPagedDecode := by
  unfold Obligations.PlainPagedDecode
  intro s x b hhit hhide hsel hwide hfw
  have step4 : busDecode s x = decodePlain s x := by simp [busDecode, hhit, hhide, hsel, hwide]
  rw [step4, decodePlain_of_inFw hfw]

/-- Settles O20: the flags lead to step 5. -/
theorem wideDecode : Obligations.WideDecode := by
  unfold Obligations.WideDecode
  intro s x hhit hhide hwide
  have step5 : busDecode s x = decodeWide s x := by simp [busDecode, hhit, hhide, hwide]
  refine ⟨fun hfw => ?firmware, fun hfw hcart => ?cartridge, fun hfw hcart => ?outside⟩
  case firmware => rw [step5, decodeWide, hfw, ← wrel_toNat]; rfl
  case cartridge => rw [busDecode_wideCart hhit hhide hwide hfw hcart, wideOffset_eq]
  case outside => rw [step5, decodeWide, hfw, hcart]

/-- Settles O24: the place exists, and `ExpansionStore` has one only where it is installed. -/
theorem decodedOffsetsInRange : Obligations.DecodedOffsetsInRange := by
  unfold Obligations.DecodedOffsetsInRange
  intro s x ref hpage hwin hd
  have hin := busDecode_inStore hpage hwin hd
  refine ⟨fun hr => ?main, fun hr => ?firmware, fun hr => ?expansion⟩ <;> rw [hr] at hin
  case main => exact hin
  case firmware => exact hin
  case expansion =>
    cases hinst : s.cfg.expansionInstalled with
    | false => simp [State.storeSize, hinst] at hin
    | true => exact ⟨by simpa [State.storeSize, hinst, expansionBytes] using hin, rfl⟩

end Sys2Proof.Machine
end

section
/-! ### What `RD` and `WR` do at the decoded place (R82, R83, R87) -/

namespace Sys2Proof.Machine

variable {s t u : State} {x : Word} {v : Byte} {ref : StoreRef} {i : Instr}

theorem execRd_of_error {r : Refusal} (hp : s.phase = .running) (hd : busDecode s x = .error r) :
    execRd x s = .refused r := by
  rw [execRd, whenRunning_running hp, hd]

theorem execWr_of_error {r : Refusal} (hp : s.phase = .running) (hd : busDecode s x = .error r) :
    execWr x v s = .refused r := by
  rw [execWr, whenRunning_running hp, hd]

/-- Settles O25: one case for each answer of the decoder. -/
theorem readReturnsDecodedByte : Obligations.ReadReturnsDecodedByte := by
  unfold Obligations.ReadReturnsDecodedByte
  intro s x hp
  exact ⟨execRd_of_none hp, fun _ => execRd_of_some hp, fun _ => execRd_of_error hp⟩

/-- A completed write gives the decoded byte the value and keeps every other (R83). -/
theorem execWr_storeByte (h : execWr x v s = .next t) (r : Region) (o : Nat) :
    t.storeByte r o = if busDecode s x = .ok (some ⟨r, o⟩) then v else s.storeByte r o := by
  obtain ⟨-, ⟨hd, rfl⟩ | ⟨ref, hd, -, rfl⟩⟩ := execWr_next h
  · simp [hd]
  · obtain ⟨r', o'⟩ := ref
    simp [hd, State.putByte_storeByte, eq_comm]

/-- Settles O26: one case for each answer of the decoder, and the place it gives is no other. -/
theorem writeStoresOneByte : Obligations.WriteStoresOneByte := by
  unfold Obligations.WriteStoresOneByte
  intro s x v hp
  refine ⟨execWr_of_none hp, fun ref hd hin => ?place, fun _ => execWr_of_error hp⟩
  have he := execWr_of_some (v := v) hp hd hin
  obtain ⟨registers, setting⟩ := execWr_frame he
  refine ⟨_, he, ?_, fun r o hne => ?_, registers, setting, rfl⟩
  · rw [execWr_storeByte he, if_pos hd]
  · rw [execWr_storeByte he, if_neg]
    rw [hd]
    rintro ⟨⟩
    simp at hne

/-! #### A byte followed along a run -/

/-- The block runs, and the byte at the place `ref`, which exists, is `v`. -/
structure Holds (ref : StoreRef) (v : Byte) (s : State) : Prop where
  running : s.phase = .running
  inStore : ref.off < s.storeSize ref.region
  byte : s.storeByte ref.region ref.off = v

/-- A completed write leaves its byte at the decoded place. -/
theorem holds_of_execWr (h : execWr x v s = .next t) (hd : busDecode s x = .ok (some ref)) : Holds ref v t := by
  have hbyte : t.storeByte ref.region ref.off = v := by rw [execWr_storeByte h, if_pos hd]
  obtain ⟨hp, ⟨hd', -⟩ | ⟨ref', hd', hin, -⟩⟩ := execWr_next h
  · rw [hd] at hd'
    cases hd'
  · obtain rfl : ref = ref' := by simpa [hd] using hd'
    obtain ⟨-, hcfg, hphase, -⟩ := execWr_frame h
    have hsize : t.storeSize ref.region = s.storeSize ref.region :=
      State.storeSize_congr (by rw [hcfg]) (by rw [hcfg]) _
    exact ⟨hphase.trans hp, hsize ▸ hin, hbyte⟩

/-- A byte that is held is read. -/
theorem Holds.read_back (h : Holds ref v s) (hd : busDecode s x = .ok (some ref)) :
    execRd x s = .next (s.respond (.byte (some v))) := by
  rw [execRd_of_some h.running hd h.inStore, h.byte]

/-- A running block loses the byte by no request but a write that reaches it, or a `RESET` for a byte of
`ExpansionStore`. -/
theorem Holds.kept_by_exec (h : Holds ref v s) (he : exec i s = .next t)
    (hwr : ∀ x w, i = .wr x w → busDecode s x ≠ .ok (some ref))
    (hreset : ref.region = .expansion → ∀ c, i ≠ .reset c) : Holds ref v t := by
  obtain ⟨hcap, hexp, -, -, -, -, running, -⟩ := sessionConstantsKept i s t he
  refine ⟨running h.running, (State.storeSize_congr hcap hexp _).symm ▸ h.inStore, ?_⟩
  by_contra hne
  rw [← h.byte] at hne
  obtain ⟨x, w, rfl⟩ | ⟨-, ⟨img, rfl⟩ | rfl⟩ | ⟨hr, c, rfl⟩ := storesHaveOnlyTheirWriters i s t _ _ he hne
  · exact hne ((execWr_storeByte he _ _).trans (if_neg (hwr x w rfl)))
  · exact (beforeReset_next he).1 h.running
  · exact (beforeReset_next he).1 h.running
  · exact hreset hr c rfl

/-- The byte is held at the end of a run that does not touch it, by induction on the run's requests. -/
theorem Holds.kept_by_run {l : List Instr} (h : Holds ref v s) (hl : Untouched ref l s)
    (hrun : runRequests l s = .next u) (hreset : ref.region = .expansion → ∀ c, Instr.reset c ∉ l) : Holds ref v u := by
  induction l generalizing s with
  | nil =>
    cases hrun
    exact h
  | cons i l ih =>
    obtain ⟨hwr, hrest⟩ := hl
    rw [runRequests] at hrun
    cases he : exec i s with
    | next t =>
      rw [he] at hrun
      have ht : Holds ref v t := h.kept_by_exec he hwr fun hr c hc => hreset hr c (by simp [hc])
      exact ih ht (hrest t he) hrun fun hr c hc => hreset hr c (List.mem_cons_of_mem i hc)
    | fault f => simp [he] at hrun
    | refused r => simp [he] at hrun

/-- Settles O29: the write leaves the byte, the run keeps it, and the read finds it. -/
theorem readBackAfterUntouchedRun : Obligations.ReadBackAfterUntouchedRun := by
  unfold Obligations.ReadBackAfterUntouchedRun
  intro s t u x y v ref l hd hwr hl hrun hreset hd'
  exact ((holds_of_execWr hwr hd).kept_by_run hl hrun hreset).read_back hd'

/-- Settles O28: a write changes nothing that the decoder asks. -/
theorem writeThenRead : Obligations.WriteThenRead := by
  unfold Obligations.WriteThenRead
  intro s t x y v ref hwr hx hy
  obtain ⟨⟨hpage, hsel, hwide, hhide⟩, hcfg, -, hwin, -⟩ := execWr_frame hwr
  exact (holds_of_execWr hwr hx).read_back ((busDecode_congr hpage hsel hwide hhide hcfg hwin y).trans hy)

end Sys2Proof.Machine
end

section
/-! ### Faults (R85, R151) -/

namespace Sys2Proof.Machine

variable {s : State} {f : Fault}

theorem whenRunning_fault {k : StepOutcome} (h : whenRunning s k = .fault f) : s.phase = .running ∧ k = .fault f := by
  unfold whenRunning at h
  split_ifs at h with hp
  exact ⟨hp, h⟩

theorem beforeReset_fault {k : StepOutcome} (h : beforeReset s k = .fault f) : k = .fault f := by
  unfold beforeReset at h
  split_ifs at h
  exact h

/-- What a fault of `RD` comes from. -/
theorem execRd_fault {x : Word} (h : execRd x s = .fault f) :
    s.phase = .running ∧ ∃ ref, busDecode s x = .ok (some ref) ∧ s.storeSize ref.region ≤ ref.off := by
  have hp := (whenRunning_fault h).1
  rcases hd : busDecode s x with r | (_ | ref)
  · simp [execRd_of_error hp hd] at h
  · simp [execRd_of_none hp hd] at h
  · exact ⟨hp, ref, rfl, not_lt.1 fun hin => by simp [execRd_of_some hp hd hin] at h⟩

/-- What a fault of `WR` comes from. -/
theorem execWr_fault {x : Word} {v : Byte} (h : execWr x v s = .fault f) :
    s.phase = .running ∧ ∃ ref, busDecode s x = .ok (some ref) ∧ s.storeSize ref.region ≤ ref.off := by
  have hp := (whenRunning_fault h).1
  rcases hd : busDecode s x with r | (_ | ref)
  · simp [execWr_of_error hp hd] at h
  · simp [execWr_of_none hp hd] at h
  · exact ⟨hp, ref, rfl, not_lt.1 fun hin => by simp [execWr_of_some hp hd hin] at h⟩

/-- Only a bus request of a running block faults, and only where the decoded place does not exist. -/
theorem exec_fault {i : Instr} (h : exec i s = .fault f) :
    s.phase = .running ∧ ∃ x ref, busDecode s x = .ok (some ref) ∧ s.storeSize ref.region ≤ ref.off := by
  cases hc : controlTuple i with
  | some tuple =>
    obtain ⟨rule, hrule, -⟩ := exec_control hc
    rw [hrule] at h
    rw [controlRequest_running (whenRunning_fault h).1] at h
    cases h
  | none =>
    cases i <;> simp only [controlTuple, reduceCtorEq] at hc
    case rd x => exact (execRd_fault h).imp_right fun href => ⟨x, href⟩
    case wr x v => exact (execWr_fault h).imp_right fun href => ⟨x, href⟩
    case reset c =>
      replace h : execReset c s = .fault f := h
      unfold execReset at h
      split_ifs at h
    case hide b => cases (whenRunning_fault h).2
    case loadImage img => cases beforeReset_fault h
    case defaultImage => cases beforeReset_fault h
    case saveImage => cases h

/-- Settles O53: a step faults only by an instruction, and from a good state every decoded place exists. -/
theorem stepNeverFaults : Obligations.StepNeverFaults := by
  unfold Obligations.StepNeverFaults
  rintro s f ⟨hpage, -, hwin, -⟩ hstep
  obtain ⟨-, hidle⟩ | ⟨r, rest, -, ⟨e, -, herr⟩ | ⟨i, -, hexec⟩⟩ := step_cases s
  · rw [hidle] at hstep
    cases hstep
  · rw [herr] at hstep
    cases hstep
  · rw [hexec] at hstep
    obtain ⟨hp, x, ref, hd, hout⟩ := exec_fault hstep
    exact absurd (busDecode_inStore (hpage hp) hwin hd) (not_lt.2 hout)

end Sys2Proof.Machine
end

section
/-! ### The control writes (R95, R97, R100 to R117) -/

namespace Sys2Proof.Machine

variable {s t : State} {i : Instr} {a : Word} {k : Nat}

/-- The drive-select step writes the top page bit, in split mode alone (R117). -/
theorem writtenBit_driveWrite (s : State) (a : Word) (k j : Nat) :
    writtenBit (driveWrite s a k) j =
      if s.cfg.splitMode ≠ .disabled ∧ j = pageWidth s.cfg.capacityClass - 1 then
        some (if s.cfg.splitMode = .dualAddress then decide (a = s.cfg.baseB) else decide (k > 7))
      else none := by
  unfold driveWrite driveBit
  rw [boundary_eq_pageWidth]
  cases s.cfg.splitMode <;> simp [writtenBit, beq_eq_decide]

/-- Page bit `j` after a control write: the drive-select step's bit, else the bit rule's, else the bit as it was. -/
theorem pageBitAfter_eq (s : State) (a : Word) (k : Nat) (w : Option (Nat × Bool)) (j : Nat) :
    pageBitAfter s a k w j =
      (writtenBit (driveWrite s a k) j).getD ((writtenBit w j).getD (s.page.getLsbD j)) := by
  unfold pageBitAfter
  rw [writtenBit_driveWrite]
  by_cases hforced : s.cfg.splitMode ≠ .disabled ∧ j = pageWidth s.cfg.capacityClass - 1
  · rw [if_pos hforced, if_pos hforced]
    rfl
  · rw [if_neg hforced, if_neg hforced]
    rcases w with _ | ⟨i, v⟩
    · rfl
    · by_cases hj : j = i <;> simp [writtenBit, hj]

/-- A qualifying control write whose rule gives the two flags their values and writes at most one page bit. -/
theorem controlOutcome_of_rule {rule : State → State} {sel wide : Bool} {w : Option (Nat × Bool)}
    (hexec : exec i s = controlRequest a k rule s) (hp : s.phase = .running) (hq : Qualifies s a)
    (hrule : rule s = ((s.setSelected sel).setWide wide).setPage (writeBit w s.page)) (hw : BitInPage w) :
    ControlOutcome i s a k sel wide w := by
  have hgate : qualifies s a = true := by simpa [qualifies] using hq
  have hdone := hexec.trans (controlRequest_running hp a k rule)
  rw [if_pos hgate, hrule, driveSelect_eq] at hdone
  refine ⟨_, hdone, rfl, rfl, fun j _ => ?page, rfl, ⟨rfl, rfl, rfl, rfl, rfl⟩, fun r o => ?bytes, rfl⟩
  case page =>
    rw [pageBitAfter_eq, ← writeBit_getLsbD hw, ← writeBit_getLsbD (driveWrite_inPage s a k)]
    rfl
  case bytes => exact State.storeByte_congr (by simp) (State.unlisted_of_phase (by simp) r) (by simp) o

/-- Each of the sixteen control writes at a base completes so. -/
theorem controlOutcome_of_tuple {v : Bool} (h : controlTuple i = some (a, k, v)) (hp : s.phase = .running)
    (hq : Qualifies s a) : ∃ sel wide w, ControlOutcome i s a k sel wide w := by
  obtain ⟨rule, hexec, hwrites⟩ := exec_control_writes h
  obtain ⟨sel, wide, w, hrule⟩ := hwrites s
  exact ⟨sel, wide, w, controlOutcome_of_rule (hexec s) hp hq hrule.first hrule.inPage⟩

/-! #### The decoder in wide mode -/

/-- A wide block does not depend on page bits 1 and 0 (R68). -/
theorem wideOffset_congr {p q : Page} (h : p >>> 2 = q >>> 2) (x : Word) : wideOffset p x = wideOffset q x := by
  have hblock : p.toNat / 4 = q.toNat / 4 := by
    simpa [Nat.shiftRight_eq_div_pow] using congrArg BitVec.toNat h
  rw [wideOffset_eq, wideOffset_eq, hblock]

/-- In wide mode the decoder asks neither `selected` nor page bits 1 and 0 (R80, step 5). -/
theorem busDecode_congr_wide (hs : s.wideModeActive = true) (ht : t.wideModeActive = true)
    (hpage : t.page >>> 2 = s.page >>> 2) (hhide : t.hideSwitch = s.hideSwitch) (hcfg : t.cfg = s.cfg)
    (hwin : t.windows = s.windows) (x : Word) : busDecode t x = busDecode s x := by
  have hhit : expansionHit t x = expansionHit s x := expansionHit_congr (by rw [hcfg]) hwin x
  have hfw : inFw t x = inFw s x := by simp only [inFw, windowTest, hcfg, hwin]
  have hcart : inCart t x = inCart s x := by simp only [inCart, windowTest, hcfg, hwin]
  have hstep5 : decodeWide t x = decodeWide s x := by
    simp only [decodeWide, hfw, hcart, wideOffset_congr hpage]
  simp [busDecode, hhit, hhide, hs, ht, hstep5]

/-! #### Each control bit -/

/-- Settles O33: bit 0's rule writes `selected`. -/
theorem controlSelect : Obligations.ControlSelect := by
  unfold Obligations.ControlSelect
  intro s a v hp hq
  exact ⟨controlOutcome_of_rule (rule := selectRule v) rfl hp hq rfl (by simp),
    fun hwide => busDecode_congr_wide hwide hwide rfl rfl rfl rfl⟩

/-- The page bit that control bits 1 and 2 write (R101, R102). -/
theorem lowPageRule_eq (j : Nat) (v : Bool) (s : State) :
    lowPageRule j v s = s.setPage (writeBit (if s.wideModeActive then none else some (j, v)) s.page) := by
  unfold lowPageRule
  split_ifs <;> rfl

/-- Settles O34: the rules of bits 1 and 2 write the crossed page bit outside wide mode. -/
theorem controlCrossedPageBits : Obligations.ControlCrossedPageBits := by
  unfold Obligations.ControlCrossedPageBits
  intro s a v hp hq
  have low {i : Instr} {k j : Nat} (hexec : exec i s = controlRequest a k (lowPageRule j v) s) (hj : j < 13) :
      ControlOutcome i s a k s.selected s.wideModeActive (if s.wideModeActive then none else some (j, v)) :=
    controlOutcome_of_rule hexec hp hq (lowPageRule_eq j v s) (by split_ifs <;> simp [hj])
  exact ⟨low rfl (by decide), low rfl (by decide),
    fun hwide p x hpage => busDecode_congr_wide (t := s.setPage p) hwide hwide hpage rfl rfl rfl x⟩

/-- Settles O35: the rules of bits 3 to 9 write their page bit always. -/
theorem controlMiddlePageBits : Obligations.ControlMiddlePageBits := by
  unfold Obligations.ControlMiddlePageBits
  intro s a v hp hq
  have mid {i : Instr} {k j : Nat} (hexec : exec i s = controlRequest a k (midPageRule j v) s) (hj : j < 13) :
      ControlOutcome i s a k s.selected s.wideModeActive (some (j, v)) :=
    controlOutcome_of_rule hexec hp hq rfl (by simp [hj])
  exact ⟨mid rfl (by decide), mid rfl (by decide), mid rfl (by decide), mid rfl (by decide), mid rfl (by decide),
    mid rfl (by decide), mid rfl (by decide)⟩

/-- Settles O36: the rules of bits 10 to 13 write the page bits up to the boundary, which split mode takes away. -/
theorem controlHighPageBits : Obligations.ControlHighPageBits := by
  unfold Obligations.ControlHighPageBits
  intro s a v hp hq
  have high {i : Instr} {k j : Nat} (hexec : exec i s = controlRequest a k (highPageRule k j v) s) (hj : j < 13) :
      ControlOutcome i s a k s.selected s.wideModeActive (highPageWrite k j v s.cfg) :=
    controlOutcome_of_rule hexec hp hq (highPageRule_eq k j v s) (by unfold highPageWrite; split_ifs <;> simp [hj])
  exact ⟨high rfl (by decide), high rfl (by decide), high rfl (by decide), high rfl (by decide)⟩

/-- Settles O37: bit 14's rule keeps the state. -/
theorem controlReserved : Obligations.ControlReserved := by
  unfold Obligations.ControlReserved
  intro s a v hp hq
  exact controlOutcome_of_rule (rule := reservedRule) rfl hp hq rfl (by simp)

/-- Settles O38: bit 15's rule writes `wideModeActive` where the record allows it. -/
theorem controlWide : Obligations.ControlWide := by
  unfold Obligations.ControlWide
  intro s a v hp hq
  refine controlOutcome_of_rule (rule := wideRule v) rfl hp hq ?_ (by simp)
  unfold wideRule
  split_ifs <;> rfl

/-! #### The drive-select step and the address gate -/

/-- The top bit of a `w + 1`-bit page is the half it lies in. -/
theorem page_topBit_iff {p : Page} {w : Nat} (h : p.toNat < 2 ^ (w + 1)) : p.getLsbD w = true ↔ 2 ^ w ≤ p.toNat := by
  have hlow : p.toNat < 2 ^ w ↔ p.getLsbD w = false := by
    rw [page_lt_iff] at h ⊢
    refine ⟨fun hbits => hbits w le_rfl, fun htop j hj => ?_⟩
    obtain rfl | hlt := hj.eq_or_lt
    · exact htop
    · exact h j hlt
  rw [← not_lt, hlow, Bool.not_eq_false]

/-- The page bit that the drive-select step forces in split mode (R117). -/
theorem pageBitAfter_top (hsplit : s.cfg.splitMode ≠ .disabled) (w : Option (Nat × Bool)) :
    pageBitAfter s a k w (pageWidth s.cfg.capacityClass - 1) = true ↔
      (s.cfg.splitMode = .dualAddress ∧ a = s.cfg.baseB) ∨ (s.cfg.splitMode = .bitSelected ∧ k > 7) := by
  unfold pageBitAfter
  rw [if_pos ⟨hsplit, rfl⟩]
  cases hmode : s.cfg.splitMode with
  | disabled => exact absurd hmode hsplit
  | dualAddress | bitSelected => simp

/-- Settles O40: every qualifying write ends with the drive-select step, and a page below `2 ^ W` stays there. -/
theorem driveSelectStep : Obligations.DriveSelectStep := by
  unfold Obligations.DriveSelectStep
  intro s i a k v htuple hp hq hsplit ds
  obtain ⟨sel, wide, w, t, he, -, -, hbits, -, ⟨hcfg, hphase, -⟩, -⟩ := controlOutcome_of_tuple htuple hp hq
  obtain ⟨hpos, hwidth⟩ := pageWidth_bounds s.cfg.capacityClass
  have htop : t.page.getLsbD (pageWidth s.cfg.capacityClass - 1) = true ↔ ds := by
    rw [hbits _ (by omega)]
    exact pageBitAfter_top hsplit w
  refine ⟨t, he, htop, fun hpage => ?_⟩
  have hfits : t.page.toNat < 2 ^ pageWidth s.cfg.capacityClass := by
    rw [← hcfg]
    exact (completion_of_exec he).pageFits (fun _ => hpage) (hphase.trans hp)
  refine ⟨hfits, (page_topBit_iff ?_).symm.trans htop⟩
  rwa [Nat.sub_add_cancel (by omega)]

/-- Settles O39: the address gate lets neither the rule nor the drive-select step run. -/
theorem controlOtherAddressIgnored : Obligations.ControlOtherAddressIgnored := by
  unfold Obligations.ControlOtherAddressIgnored
  intro s i a k v htuple hp hA hB
  obtain ⟨rule, hexec, -⟩ := exec_control htuple
  have hgate : qualifies s a = false := by simp [qualifies, hA, hB]
  rw [hexec, controlRequest_running hp, hgate]
  rfl

end Sys2Proof.Machine
end

section
/-! ### The hide switch and the images (R130 to R136) -/

namespace Sys2Proof.Machine

variable {s : State}

/-- `LOAD` and `DEFAULT` are not refused before the first `RESET` (R153). -/
theorem beforeReset_not (h : s.phase ≠ .running) (k : StepOutcome) : beforeReset s k = k := by
  simp [beforeReset, h]

theorem exec_loadImage (h : s.phase ≠ .running) (img : Image) :
    exec (.loadImage img) s =
      .next (s.withImage (loadedMain s.cfg.capacityClass img) (loadedFirmware img)) := beforeReset_not h _

theorem exec_defaultImage (h : s.phase ≠ .running) : exec .defaultImage s = .next (s.withImage [] []) :=
  beforeReset_not h _

theorem exec_hide (h : s.phase = .running) (b : Bool) : exec (.hide b) s = .next ((s.setHide b).respond .nothing) :=
  whenRunning_running h _

/-- What a new image leaves as it was (R135): all but the two battery-backed stores and the phase. -/
theorem State.withImage_frame (s : State) (m f : Memory) :
    (∀ o, (s.withImage m f).storeByte .expansion o = s.storeByte .expansion o) ∧ SameRegisters s (s.withImage m f) ∧
      (s.withImage m f).cfg = s.cfg ∧ (s.withImage m f).windows = s.windows ∧ (s.withImage m f).port = s.port ∧
      (s.withImage m f).session = s.session ∧ (s.withImage m f).result = .nothing :=
  ⟨withImage_expansion s m f, State.withImage_registers s m f, rfl, rfl, rfl, rfl, rfl⟩

/-- With nothing listed both battery-backed stores are all zero (R134). -/
theorem withImage_nil (s : State) :
    (∀ o, (s.withImage [] []).storeByte .main o = 0) ∧ ∀ o, (s.withImage [] []).storeByte .firmware o = 0 :=
  ⟨withImage_main s [] [], withImage_firmware s [] []⟩

/-- An image too short for the firmware tail gives neither store a byte (R133). -/
theorem loaded_of_short {img : Image} (h : img.length < firmwareBytes) (c : CapacityClass) :
    loadedMain c img = [] ∧ loadedFirmware img = [] :=
  ⟨if_pos h, if_pos h⟩

/-- Settles O46: the image is the saved one, whose bytes below the capacity are `MainStore` and from there on
`FirmwareStore`. -/
theorem saveReturnsTheStores : Obligations.SaveReturnsTheStores := by
  unfold Obligations.SaveReturnsTheStores
  refine fun s => ⟨savedImage s, rfl, savedImage_length s, fun i hi => ?main, fun i hi => ?firmware⟩
  case main => rw [savedImage_byte, if_pos hi]
  case firmware =>
    rw [savedImage_byte, if_neg (by omega), if_pos (Nat.add_lt_add_left (m := firmwareBytes) hi _), Nat.add_sub_cancel_left]

/-- Settles O48: an image too short for the firmware tail zeroes both stores, any other fills them by its two parts. -/
theorem loadRestoresTheStores : Obligations.LoadRestoresTheStores := by
  unfold Obligations.LoadRestoresTheStores
  intro s img hp
  refine ⟨_, exec_loadImage hp img, rfl, ?stores, State.withImage_frame s _ _⟩
  split_ifs with hshort
  · obtain ⟨hmain, hfirmware⟩ := loaded_of_short hshort s.cfg.capacityClass
    rw [hmain, hfirmware]
    exact withImage_nil s
  · refine ⟨fun i hi => ?firmware, fun i hi => ?main⟩
    case firmware =>
      rw [withImage_firmware, loadedFirmware_find img hi]
      exact if_neg hshort
    case main =>
      rw [withImage_main]
      exact loadedMain_find _ img hi

/-- Settles O50: the image has the stores' bytes and the length of both, so that the load cuts it where the save joined
it. -/
theorem saveLoadRoundTrip : Obligations.SaveLoadRoundTrip := by
  unfold Obligations.SaveLoadRoundTrip
  intro s s' u img hsave himg hp hclass
  obtain ⟨saved, hsaved, hlength, hmain, hfirmware⟩ := saveReturnsTheStores s
  obtain rfl : s.respond (.image saved) = s' := by simpa [hsaved] using hsave
  obtain rfl : saved = img := by simpa using himg
  obtain ⟨t, hload, -, hstores, -⟩ := loadRestoresTheStores u saved hp
  have hmainLength : saved.length - 8192 = capacity s.cfg.capacityClass := by omega
  rw [if_neg (by omega), hmainLength, hclass] at hstores
  obtain ⟨hfirmware', hmain'⟩ := hstores
  refine ⟨t, hload, fun o ho => ?main, fun o ho => (hfirmware' o ho).trans (hfirmware o ho)⟩
  rw [hmain' o ho, if_pos ho, hmain o ho]

/-- Settles O45: a running block takes `HIDE`, and the step with it ahead takes it off the port again. -/
theorem hideRequest : Obligations.HideRequest := by
  unfold Obligations.HideRequest
  intro s b hp
  have bytes : SameBytes s ((s.setHide b).respond .nothing) :=
    (SameStores.of_phase (by simp) (by simp)).sameBytes (by simp)
  have hstep : step (s.issueFirst (encode (.hide b))) = exec (.hide b) s :=
    stepRunsDecodedRequest _ _ s.port _ rfl (decode_encode rfl)
  exact ⟨_, exec_hide hp b, rfl, rfl, rfl, rfl, ⟨rfl, rfl, rfl, rfl, rfl⟩, bytes, rfl, hstep.trans (exec_hide hp b)⟩

/-- Settles O49: an image that lists nothing. -/
theorem defaultZeroesTheStores : Obligations.DefaultZeroesTheStores := by
  unfold Obligations.DefaultZeroesTheStores
  intro s hp
  obtain ⟨hmain, hfirmware⟩ := withImage_nil s
  exact ⟨_, exec_defaultImage hp, rfl, hmain, hfirmware, State.withImage_frame s [] []⟩

end Sys2Proof.Machine
end

section
/-! ### Refusals (R150, R152, R153, R171, R172) -/

namespace Sys2Proof.Machine

variable {s : State} {x : Word} {r : Refusal}

theorem whenRunning_refused {k : StepOutcome} (h : whenRunning s k = .refused r) :
    (s.phase ≠ .running ∧ r = .notReset) ∨ (s.phase = .running ∧ k = .refused r) := by
  unfold whenRunning at h
  split_ifs at h with hp
  · exact .inr ⟨hp, h⟩
  · cases h
    exact .inl ⟨hp, rfl⟩

theorem beforeReset_running (h : s.phase = .running) (k : StepOutcome) :
    beforeReset s k = .refused .persistenceAfterReset := if_pos h

/-- Settles O14: `LOAD` and `DEFAULT` stand behind the gate of R153, and `SAVE` completes. -/
theorem persistenceAfterReset : Obligations.PersistenceAfterReset := by
  unfold Obligations.PersistenceAfterReset
  refine fun s => ⟨fun hp => ⟨fun _ => beforeReset_running hp _, beforeReset_running hp _⟩, fun r hsave => ?_⟩
  cases hsave

/-! #### The decoder's refusal -/

/-- A window test refuses where `genmodFix` asks a predicate that has no value, and nowhere else (R81, R152). -/
theorem windowTest_error_iff {base : Word} {genmod : Option OffsetSet} :
    windowTest s base genmod x = .error r ↔
      r = .genmodWindowUnknown ∧ s.cfg.genmodFix = true ∧ genmod = none := by
  cases hg : s.cfg.genmodFix with
  | false => simp [windowTest_base hg]
  | true =>
    cases genmod with
    | none => simp [windowTest_unknown hg, eq_comm]
    | some ws => simp [windowTest_given hg]

/-- With `genmodFix` true a window excludes an offset by the predicate that is given (R81). -/
theorem windowTest_excludes_iff {base : Word} {genmod : Option OffsetSet} (hg : s.cfg.genmodFix = true) :
    windowTest s base genmod x = .ok false ↔ ∃ ws, genmod = some ws ∧ offsetIn ws x = false := by
  cases genmod with
  | none => simp [windowTest_unknown hg]
  | some ws => simp [windowTest_given hg]

theorem decodePlain_error_iff : decodePlain s x = .error r ↔ inFw s x = .error r := by
  unfold decodePlain
  rcases inFw s x with e | (_ | _)
  · simp
  · simp
  · cases inOverlay x <;> simp

theorem decodeWide_error_iff :
    decodeWide s x = .error r ↔ inFw s x = .error r ∨ (inFw s x = .ok false ∧ inCart s x = .error r) := by
  unfold decodeWide
  rcases inFw s x with e | (_ | _)
  · simp
  · rcases inCart s x with e | (_ | _) <;> simp
  · simp

/-- The decoder refuses only by a window test that its steps 4 and 5 come to (R80). -/
theorem busDecode_error_iff :
    busDecode s x = .error r ↔
      expansionHit s x = none ∧ s.hideSwitch = false ∧ (s.selected = true ∨ s.wideModeActive = true) ∧
        (inFw s x = .error r ∨ (s.wideModeActive = true ∧ inFw s x = .ok false ∧ inCart s x = .error r)) := by
  cases hhit : expansionHit s x with
  | some w => simp [busDecode_of_hit hhit]
  | none =>
    cases hhide : s.hideSwitch with
    | true => simp [busDecode_silent hhit (.inl hhide)]
    | false =>
      cases hwide : s.wideModeActive with
      | true => simp [busDecode, hhit, hhide, hwide, decodeWide_error_iff]
      | false =>
        cases hsel : s.selected with
        | true => simp [busDecode, hhit, hhide, hwide, hsel, decodePlain_error_iff]
        | false => simp [busDecode_silent hhit (.inr ⟨hsel, hwide⟩)]

/-- Every refusal of the decoder is R152's. -/
theorem busDecode_error (h : busDecode s x = .error r) : r = .genmodWindowUnknown ∧ s.cfg.genmodFix = true := by
  obtain ⟨-, -, -, hfw | ⟨-, -, hcart⟩⟩ := busDecode_error_iff.1 h
  · obtain ⟨hr, hg, -⟩ := windowTest_error_iff.1 hfw
    exact ⟨hr, hg⟩
  · obtain ⟨hr, hg, -⟩ := windowTest_error_iff.1 hcart
    exact ⟨hr, hg⟩

/-! #### The bus requests -/

theorem execRd_refused_iff (hp : s.phase = .running) : execRd x s = .refused r ↔ busDecode s x = .error r := by
  refine ⟨fun h => ?_, execRd_of_error hp⟩
  rcases hd : busDecode s x with e | (_ | ref)
  · simpa [execRd_of_error hp hd] using h
  · simp [execRd_of_none hp hd] at h
  · rw [execRd, whenRunning_running hp, hd] at h
    dsimp only at h
    split at h <;> cases h

theorem execWr_refused_iff {v : Byte} (hp : s.phase = .running) :
    execWr x v s = .refused r ↔ busDecode s x = .error r := by
  refine ⟨fun h => ?_, execWr_of_error hp⟩
  rcases hd : busDecode s x with e | (_ | ref)
  · simpa [execWr_of_error hp hd] using h
  · simp [execWr_of_none hp hd] at h
  · rw [execWr, whenRunning_running hp, hd] at h
    dsimp only at h
    split at h <;> cases h

/-- Settles O21: both requests refuse as the decoder does, by the test of the firmware window or, in wide mode and
outside that window, of the cartridge window. -/
theorem genmodRefusalExact : Obligations.GenmodRefusalExact := by
  unfold Obligations.GenmodRefusalExact
  intro s x v hp asked
  have decoder : busDecode s x = .error .genmodWindowUnknown ↔ asked := by
    rw [busDecode_error_iff, inFw, inCart, windowTest_error_iff, windowTest_error_iff]
    cases hg : s.cfg.genmodFix with
    | false => simp [asked, hg]
    | true =>
      rw [windowTest_excludes_iff hg]
      simp only [asked, hg, true_and, and_comm (a := ∃ ws, _)]
  exact ⟨(execRd_refused_iff hp).trans decoder, (execWr_refused_iff hp).trans decoder⟩

/-! #### All instructions -/

/-- What a refusal of `RESET` comes from, in the order of R155. -/
theorem execReset_refused {c : ConfigRecord} (h : execReset c s = .refused r) :
    (s.phase = .constructed ∧ r = .noImage) ∨
      (s.phase ≠ .constructed ∧ r = .sessionConfigChanged ∧
        (c.capacityClass ≠ s.cfg.capacityClass ∨ c.expansionInstalled ≠ s.cfg.expansionInstalled)) := by
  unfold execReset at h
  split_ifs at h with hp hk
  · cases h
    exact .inl ⟨hp, rfl⟩
  · cases h
    refine .inr ⟨hp, rfl, ?_⟩
    simpa [keepsSizes, imp_iff_not_or] using hk

/-- Settles O15: the request's gate of the phase refuses, or behind it the decoder; a control write behind its gate
completes. -/
theorem refusalsAreTheSpecsSet : Obligations.RefusalsAreTheSpecsSet := by
  unfold Obligations.RefusalsAreTheSpecsSet
  intro i s r h
  cases hc : controlTuple i with
  | some tuple =>
    obtain ⟨rule, hrule, -⟩ := exec_control hc
    rw [hrule] at h
    obtain ⟨hp, rfl⟩ | ⟨hp, -⟩ := whenRunning_refused h
    · exact .inr (.inr (.inr (.inl ⟨rfl, hp, .inr (.inr (.inl rfl))⟩)))
    · rw [controlRequest_running hp] at h
      cases h
  | none =>
    cases i <;> simp only [controlTuple, reduceCtorEq] at hc
    case rd x =>
      obtain ⟨hp, rfl⟩ | ⟨hp, -⟩ := whenRunning_refused h
      · exact .inr (.inr (.inr (.inl ⟨rfl, hp, .inl ⟨x, rfl⟩⟩)))
      · obtain ⟨rfl, hg⟩ := busDecode_error ((execRd_refused_iff hp).1 h)
        exact .inl ⟨rfl, .inl ⟨x, rfl⟩, hp, hg⟩
    case wr x v =>
      obtain ⟨hp, rfl⟩ | ⟨hp, -⟩ := whenRunning_refused h
      · exact .inr (.inr (.inr (.inl ⟨rfl, hp, .inr (.inl ⟨x, v, rfl⟩)⟩)))
      · obtain ⟨rfl, hg⟩ := busDecode_error ((execWr_refused_iff hp).1 h)
        exact .inl ⟨rfl, .inr ⟨x, v, rfl⟩, hp, hg⟩
    case reset c =>
      obtain ⟨hp, rfl⟩ | ⟨hp, rfl, hsizes⟩ := execReset_refused h
      · exact .inr (.inr (.inr (.inr ⟨rfl, hp, c, rfl⟩)))
      · exact .inr (.inr (.inl ⟨rfl, hp, c, rfl, hsizes⟩))
    case hide b =>
      obtain ⟨hp, rfl⟩ | ⟨-, hk⟩ := whenRunning_refused h
      · exact .inr (.inr (.inr (.inl ⟨rfl, hp, .inr (.inr (.inr ⟨b, rfl⟩))⟩)))
      · cases hk
    case loadImage img =>
      by_cases hp : s.phase = .running
      · obtain rfl : .persistenceAfterReset = r := by simpa [(persistenceAfterReset s).1 hp] using h
        exact .inr (.inl ⟨rfl, .inl ⟨img, rfl⟩, hp⟩)
      · simp [exec_loadImage hp] at h
    case defaultImage =>
      by_cases hp : s.phase = .running
      · obtain rfl : .persistenceAfterReset = r := by simpa [(persistenceAfterReset s).1 hp] using h
        exact .inr (.inl ⟨rfl, .inr rfl, hp⟩)
      · simp [exec_defaultImage hp] at h
    case saveImage => exact absurd h ((persistenceAfterReset s).2 r)

end Sys2Proof.Machine
end

section
/-! ### The next session (R136, R163, R172) -/

namespace Sys2Proof.Machine

variable {s : State} {c : ConfigRecord}

/-- `RESET` completes once an image has come, with a record that keeps the sizes (R170, R171). -/
theorem exec_reset (himaged : s.phase ≠ .constructed) (hcap : c.capacityClass = s.cfg.capacityClass)
    (hexp : c.expansionInstalled = s.cfg.expansionInstalled) :
    exec (.reset c) s = .next ((s.resetTo c).respond .nothing) := by
  have hkeeps : keepsSizes s c = true := by simp [keepsSizes, hcap, hexp]
  exact (if_neg himaged).trans (if_pos hkeeps)

/-- A reset writes no store (R170). -/
theorem State.resetTo_sameBytes (himaged : s.phase ≠ .constructed) (c : ConfigRecord) : SameBytes s (s.resetTo c) :=
  SameStores.sameBytes (fun r => ⟨State.resetTo_store s c r, State.resetTo_unlisted himaged c r⟩) rfl

/-- Settles O51: the load gives the stores back (R136), and the reset keeps them and sets the registers. -/
theorem nextSessionKeepsTheStores : Obligations.NextSessionKeepsTheStores := by
  unfold Obligations.NextSessionKeepsTheStores
  intro s n c0 c w q hc0 hcap hexp
  have hnew : (construct n c0 w q).phase ≠ .running := nofun
  obtain ⟨u, hload, hmain, hfirmware⟩ := saveLoadRoundTrip s _ (construct n c0 w q) _ rfl rfl hnew hc0
  obtain ⟨hcfg, hphase⟩ : u.cfg = c0 ∧ u.phase ≠ .constructed := by
    rw [exec_loadImage hnew] at hload
    cases hload
    exact ⟨rfl, nofun⟩
  have hreset := exec_reset hphase (hcfg ▸ hcap) (hcfg ▸ hexp)
  have bytes := State.resetTo_sameBytes hphase c
  refine ⟨(u.resetTo c).respond .nothing, by simp only [runRequests, hload, hreset],
    fun o ho => ?main, fun o ho => ?firmware, rfl, rfl, rfl, rfl, rfl, rfl⟩
  case main => rw [State.respond_storeByte, bytes, hmain o ho]
  case firmware => rw [State.respond_storeByte, bytes, hfirmware o ho]

end Sys2Proof.Machine
end

section
/-! ### The addressing modes (R31, R80, R157) -/

namespace Sys2Proof.Machine

variable {s t : State}

/-- The mode is a function of three registers (R31). -/
theorem addressingMode_congr (hsel : t.selected = s.selected) (hwide : t.wideModeActive = s.wideModeActive)
    (hhide : t.hideSwitch = s.hideSwitch) : addressingMode t = addressingMode s := by
  rw [addressingMode, addressingMode, hsel, hwide, hhide]

theorem addressingMode_wide (hhide : s.hideSwitch = false) (hwide : s.wideModeActive = true) :
    addressingMode s = .wide := by
  simp [addressingMode, hhide, hwide]

theorem addressingMode_plainPaged (hhide : s.hideSwitch = false) (hwide : s.wideModeActive = false)
    (hsel : s.selected = true) : addressingMode s = .plainPaged := by
  simp [addressingMode, hhide, hwide, hsel]

/-- Settles O57: a mode changes only with one of its registers, each of which has its own writers; and each place that the
decoder gives comes from one step of R80. -/
theorem addressingModeRules : Obligations.AddressingModeRules := by
  unfold Obligations.AddressingModeRules
  refine ⟨fun i s t he hmode => ?writers, fun s x ref hd href => ?reached⟩
  case writers =>
    obtain ⟨-, selWriters, wideWriters, hideWriters⟩ := registersHaveOnlyTheirWriters i s t he
    by_cases hsel : t.selected = s.selected
    · by_cases hwide : t.wideModeActive = s.wideModeActive
      · have hhide : t.hideSwitch ≠ s.hideSwitch := fun hhide => hmode (addressingMode_congr hsel hwide hhide)
        exact .inr (.inr (hideWriters hhide))
      · exact (wideWriters hwide).elim (.inr ∘ .inl) (.inr ∘ .inr ∘ .inr)
    · exact (selWriters hsel).imp_right (.inr ∘ .inr)
  case reached =>
    obtain ⟨w, -, rfl⟩ | ⟨-, hhide, hsel, hwide, hfw, hplace⟩ | ⟨-, hhide, hwide, hplace⟩ := busDecode_some hd
    · exact absurd rfl href
    · refine .inl ⟨addressingMode_plainPaged hhide hwide hsel, hfw, ?_⟩
      rw [← decide_eq_true_iff (p := 6144 ≤ _), ← inOverlay_eq]
      obtain ⟨hov, rfl⟩ | ⟨hov, rfl⟩ := hplace <;> simp [hov]
    · refine .inr ⟨addressingMode_wide hhide hwide, ?_⟩
      obtain ⟨hfw, rfl⟩ | ⟨hfw, hcart, rfl⟩ := hplace
      · exact .inl ⟨hfw, rfl⟩
      · exact .inr ⟨hfw, hcart, rfl⟩

end Sys2Proof.Machine
end

section
/-! ### The system reset and the gate before it (R155, R170 to R172) -/

namespace Sys2Proof.Machine

variable {s : State} {c : ConfigRecord}

theorem exec_reset_noImage (h : s.phase = .constructed) : exec (.reset c) s = .refused .noImage := if_pos h

theorem exec_reset_sessionConfigChanged (himaged : s.phase ≠ .constructed)
    (hsizes : c.capacityClass ≠ s.cfg.capacityClass ∨ c.expansionInstalled ≠ s.cfg.expansionInstalled) :
    exec (.reset c) s = .refused .sessionConfigChanged := by
  have hkeeps : ¬keepsSizes s c = true := by simpa [keepsSizes, imp_iff_not_or] using hsizes
  exact (if_neg himaged).trans (if_neg hkeeps)

/-- Settles O12: the two refusals in the order of R155, and behind them the reset's own rule. -/
theorem resetRequest : Obligations.ResetRequest := by
  unfold Obligations.ResetRequest
  intro s c
  split_ifs with hconstructed hsizes
  · exact exec_reset_noImage hconstructed
  · exact exec_reset_sessionConfigChanged hconstructed hsizes
  · obtain ⟨hcap, hexp⟩ : c.capacityClass = s.cfg.capacityClass ∧ c.expansionInstalled = s.cfg.expansionInstalled := by
      simpa using hsizes
    have bytes : SameBytes s ((s.resetTo c).respond .nothing) := fun r o => by
      rw [State.respond_storeByte, State.resetTo_sameBytes hconstructed]
    exact ⟨_, exec_reset hconstructed hcap hexp, rfl, rfl, rfl, rfl, rfl, rfl, bytes, rfl, rfl, rfl, rfl⟩

/-- Settles O13: each of these requests stands behind the gate of R172. -/
theorem refusedBeforeReset : Obligations.RefusedBeforeReset := by
  unfold Obligations.RefusedBeforeReset
  rintro s i hp (⟨x, rfl⟩ | ⟨x, v, rfl⟩ | hctl | ⟨b, rfl⟩)
  · exact whenRunning_not hp _
  · exact whenRunning_not hp _
  · obtain ⟨⟨a, k, v⟩, htuple⟩ := Option.isSome_iff_exists.1 hctl
    obtain ⟨rule, hexec, -⟩ := exec_control htuple
    exact (hexec s).trans (whenRunning_not hp _)
  · exact whenRunning_not hp _

end Sys2Proof.Machine
end

section
/-! ### Sequences of control writes (R181, R182) -/

namespace Sys2Proof.Machine

variable {r s t : State} {i : Instr} {a : Word} {k : Nat} {v : Bool}

/-! #### Runs -/

/-- A run whose every request completes and keeps a predicate completes and keeps it. -/
theorem runRequests_keeps {P : State → Prop} {l : List Instr}
    (hstep : ∀ i ∈ l, ∀ s, P s → ∃ t, exec i s = .next t ∧ P t) {s : State} (hs : P s) :
    ∃ t, runRequests l s = .next t ∧ P t := by
  induction l generalizing s with
  | nil => exact ⟨s, rfl, hs⟩
  | cons i l ih =>
    obtain ⟨u, he, hu⟩ := hstep i (by simp) s hs
    rw [runRequests, he]
    exact ih (fun j hj => hstep j (by simp [hj])) hu

/-- A request after a run that completes runs in the state it completed in. -/
theorem runRequests_concat {l : List Instr} (h : runRequests l s = .next t) (i : Instr) :
    runRequests (l ++ [i]) s = exec i t := by
  induction l generalizing s with
  | nil =>
    cases h
    rw [List.nil_append, runRequests]
    cases exec i t <;> rfl
  | cons j l ih =>
    rw [List.cons_append, runRequests]
    rw [runRequests] at h
    cases he : exec j s <;> simp only [he, reduceCtorEq] at h ⊢
    exact ih h

/-! #### The drive bit in bit-selected mode (R182) -/

/-- The machine runs under the record `c`. -/
def RunsUnder (c : ConfigRecord) (t : State) : Prop := t.phase = .running ∧ t.cfg = c

/-- A control write completes at any address and keeps the record. -/
theorem RunsUnder.control {c : ConfigRecord} (h : RunsUnder c s) (htuple : controlTuple i = some (a, k, v)) :
    ∃ t, exec i s = .next t ∧ RunsUnder c t := by
  obtain ⟨hp, hcfg⟩ := h
  obtain ⟨rule, hexec, -⟩ := exec_control htuple
  have he := (hexec s).trans (controlRequest_running hp a k rule)
  obtain ⟨-, sel, wide, p, ht, -⟩ := control_next htuple he
  refine ⟨_, he, ?_⟩
  rw [ht]
  exact ⟨hp, hcfg⟩

/-- Settles O41: the writes before the last keep the record, and the last one's drive-select step forces the bit. -/
theorem bitSelectedDriveByLastIndex : Obligations.BitSelectedDriveByLastIndex := by
  unfold Obligations.BitSelectedDriveByLastIndex
  intro s l k a v hp hmode hq
  obtain ⟨u, hrun, hphase, hcfg⟩ : ∃ u, runRequests (l.map fun w => controlRow w.1 w.2.1 w.2.2) s = .next u ∧
      RunsUnder s.cfg u := by
    refine runRequests_keeps (fun i hi t ht => ?_) ⟨hp, rfl⟩
    obtain ⟨w, -, rfl⟩ := List.mem_map.1 hi
    exact ht.control (controlRow_tuple w.1 w.2.1 w.2.2)
  have hmode' : u.cfg.splitMode = .bitSelected := hcfg ▸ hmode
  have hq' : Qualifies u a := by rwa [Qualifies, hcfg]
  obtain ⟨t, he, hdrive, -⟩ := driveSelectStep u _ a _ v (controlRow_tuple k a v) hphase hq' (by simp [hmode'])
  refine ⟨t, ?run, ?drive⟩
  case run =>
    rw [List.map_append]
    exact (runRequests_concat hrun _).trans he
  case drive =>
    rw [← hcfg, Bool.eq_iff_iff, hdrive]
    simp [hmode']

/-! #### The low page bits in wide mode (R181) -/

/-- The control write completes and keeps `wideModeActive`, and its bit rule writes neither page bit 0 nor 1. -/
def KeepsLowBits (i : Instr) (s : State) (a : Word) (k : Nat) : Prop :=
  ∃ sel w, ControlOutcome i s a k sel s.wideModeActive w ∧ ∀ b ∈ w, 2 ≤ b.1

theorem keepsLowBits_of_rule {rule : State → State} {w : Option (Nat × Bool)}
    (hexec : exec i s = controlRequest a k rule s) (hp : s.phase = .running) (hq : Qualifies s a)
    (hrule : rule s = s.setPage (writeBit w s.page)) (hw : ∀ b ∈ w, 2 ≤ b.1 ∧ b.1 < 13) : KeepsLowBits i s a k :=
  ⟨s.selected, w, controlOutcome_of_rule hexec hp hq hrule fun b hb => (hw b hb).2, fun b hb => (hw b hb).1⟩

theorem eq_of_mem_highPageWrite {n : Nat} {c : ConfigRecord} {b : Nat × Bool} (h : b ∈ highPageWrite k n v c) :
    b = (n, v) := by
  unfold highPageWrite at h
  split_ifs at h
  · exact (Option.mem_some_iff.1 h).symm
  · cases h

/-- In wide mode every control write but bit 15 is such: the rules of bits 1 and 2 are off, those of bits 3 to 13 write
page bits from 2 on, and bits 0 and 14 have no page bit (R100 to R114). -/
theorem keepsLowBits_of_wide (htuple : controlTuple i = some (a, k, v)) (hk : k ≠ 15) (hp : s.phase = .running)
    (hq : Qualifies s a) (hwide : s.wideModeActive = true) : KeepsLowBits i s a k := by
  cases i <;> simp only [controlTuple, Option.some.injEq, Prod.mk.injEq, reduceCtorEq] at htuple <;>
    obtain ⟨rfl, rfl, rfl⟩ := htuple
  case ctlSel => exact ⟨_, none, (controlSelect s _ _ hp hq).1, by simp⟩
  case ctlPg1 | ctlPg0 => exact keepsLowBits_of_rule (w := none) rfl hp hq (if_pos hwide) (by simp)
  case ctlPg2 | ctlPg3 | ctlPg4 | ctlPg5 | ctlPg6 | ctlPg7 | ctlPg8 =>
    exact keepsLowBits_of_rule (w := some (_, _)) rfl hp hq rfl (by simp)
  case ctlPg9 | ctlPg10 | ctlPg11 | ctlPg12 =>
    exact keepsLowBits_of_rule rfl hp hq (highPageRule_eq _ _ _ s) fun b hb => by simp [eq_of_mem_highPageWrite hb]
  case ctlRsv => exact ⟨_, none, controlReserved s _ _ hp hq, by simp⟩
  case ctlWide => exact absurd rfl hk

theorem writtenBit_eq_none {w : Option (Nat × Bool)} {j : Nat} (h : ∀ b ∈ w, b.1 ≠ j) : writtenBit w j = none := by
  match w, h with
  | none, _ => rfl
  | some b, h => exact if_neg (h b rfl).symm

/-- Where the bit rule writes from page bit 2 on, bits 0 and 1 are kept: the drive-select step writes page bit `W - 1`. -/
theorem pageBitAfter_low {w : Option (Nat × Bool)} (hw : ∀ b ∈ w, 2 ≤ b.1) {j : Nat} (hj : j < 2) :
    pageBitAfter s a k w j = s.page.getLsbD j := by
  have hwidth := (pageWidth_bounds s.cfg.capacityClass).1
  have hrule : writtenBit w j = none := writtenBit_eq_none fun b hb => by have := hw b hb; omega
  have hdrive : writtenBit (driveWrite s a k) j = none := by
    rw [writtenBit_driveWrite, if_neg]
    omega
  rw [pageBitAfter_eq, hdrive, hrule]
  rfl

/-- The machine runs in wide mode with page bits 0 and 1 as in `r`. -/
def FrozenAs (r t : State) : Prop :=
  t.phase = .running ∧ t.wideModeActive = true ∧ ∀ j < 2, t.page.getLsbD j = r.page.getLsbD j

theorem FrozenAs.control (h : FrozenAs r s) (htuple : controlTuple i = some (a, k, v)) (hk : k ≠ 15) :
    ∃ t, exec i s = .next t ∧ FrozenAs r t := by
  obtain ⟨hp, hwide, hlow⟩ := h
  by_cases hq : Qualifies s a
  · obtain ⟨sel, w, ⟨t, he, -, htwide, hbits, -, ⟨-, hphase, -⟩, -⟩, hw⟩ := keepsLowBits_of_wide htuple hk hp hq hwide
    refine ⟨t, he, hphase.trans hp, htwide.trans hwide, fun j hj => ?_⟩
    rw [hbits j (by omega), pageBitAfter_low hw hj, hlow j hj]
  · obtain ⟨hA, hB⟩ := not_or.1 hq
    exact ⟨_, controlOtherAddressIgnored s i a k v htuple hp hA hB, hp, hwide, hlow⟩

/-- Settles O42: each write keeps wide mode and the two bits. -/
theorem frozenLowPageBits : Obligations.FrozenLowPageBits := by
  unfold Obligations.FrozenLowPageBits
  intro s l hp hwide hl
  obtain ⟨t, hrun, -, htwide, hlow⟩ : ∃ t, runRequests (l.map fun w => controlRow w.1 w.2.1 w.2.2) s = .next t ∧
      FrozenAs s t := by
    refine runRequests_keeps (fun i hi t ht => ?_) ⟨hp, hwide, fun _ _ => rfl⟩
    obtain ⟨w, hw, rfl⟩ := List.mem_map.1 hi
    exact ht.control (controlRow_tuple w.1 w.2.1 w.2.2) fun hk => hl w hw (BitVec.eq_of_toNat_eq hk)
  exact ⟨t, hrun, hlow 0 (by decide), hlow 1 (by decide), htwide⟩

end Sys2Proof.Machine
end
